-- ==== Sys2Proof/Word.lean ====
section
/-!
DEFINITION. The word types of SDES-CORE (00_scope R6, R7, R8), the symbols a caller may put in a sequence and the L1
operand (30_encoding R36). A bit sequence of length n is a `BitVec n` whose position 0 is the most significant bit (R10);
the operations on sequences stand in Machine/Bits.lean.
-/

namespace Sys2Proof

/-- R6 `MKEY_W`: a master key, 10 bits. -/
abbrev MasterKey := BitVec 10

/-- R6 `SKEY_W`: a subkey, 8 bits. -/
abbrev SubKey := BitVec 8

/-- R6 `BLOCK_W`: a block, plaintext or ciphertext, 8 bits. -/
abbrev Block := BitVec 8

/-- Half of a block, 4 bits: what the document also writes `Block(4)` (C8). -/
abbrev Half := BitVec 4

/-- R38: a command word of this machine; R7 `CMD_W` is 18 (D4). -/
abbrev CmdWord := BitVec 18

/-- R40: a response word of this machine; R7 `RSP_W` is 18 (D6). -/
abbrev RspWord := BitVec 18

/-- R36: an element a caller may put in a sequence: a Bit, or something that is not 0 or 1. The tag tells two invalid
symbols apart and nothing reads it (DESIGN CHOICE, log 8: D22 allows any type that contains 0 and 1). -/
inductive Symbol where
  | bit (b : Bool)
  | other (tag : Nat)
  deriving DecidableEq, Repr

/-- R36: a symbol is a Bit when it is 0 or 1, and is invalid otherwise. -/
def Symbol.isBit : Symbol → Bool
  | .bit _ => true
  | .other _ => false

/-- R36: an L1 operand is a finite sequence of symbols of any length, position 0 first, including length 0. -/
abbrev Operand := List Symbol

end Sys2Proof
end

