-- ==== Sys2Proof/Machine/Bits.lean ====
section
/-!
DEFINITION. Bit sequences (00_scope R8 to R11, 40_tables R59, R60): position, slice, packed value, rotation, and the passage
between a bit sequence and an L1 operand. Concatenation `a ++ b` and `a XOR b` are `BitVec`'s own `++` (first operand in the
more significant bits, hence first) and `^^^`.
-/

namespace Sys2Proof.Machine

/-- `s[i]`, R8 and R10: position 0 is the most significant bit. A position outside the sequence reads as 0; no rule uses one. -/
def pos {n : Nat} (s : BitVec n) (i : Nat) : Bool :=
  s.getMsbD i

/-- The sequence of length `m` whose position `i` is `f i`. -/
def ofPositions : (m : Nat) → (Nat → Bool) → BitVec m
  | 0, _ => 0#0
  | m + 1, f => BitVec.cons (f 0) (ofPositions m fun i => f (i + 1))

/-- R9: `s[a..a+len)`, the sequence of length `len` whose position `j` is `s[a+j]`. -/
def slice {n : Nat} (s : BitVec n) (a len : Nat) : BitVec len :=
  ofPositions len fun j => pos s (a + j)

/-- R10: `val(s)`, the unsigned value of the field that carries `s`. -/
def val {n : Nat} (s : BitVec n) : Nat :=
  s.toNat

/-- R10: `seq_n(v)`, the sequence of length `n` with value `v`. -/
def seq (n v : Nat) : BitVec n :=
  BitVec.ofNat n v

/-- R59: circular shift left by `r`; position `i` of the result is `x[(i + r) mod n]`. -/
def rotl {n : Nat} (x : BitVec n) (r : Nat) : BitVec n :=
  ofPositions n fun i => pos x ((i + r) % n)

/-- R38, R40: the word of `n` bits with `top` in its two uppermost bits and `low` right-aligned below, zeros between them. -/
def packWord (n : Nat) (top : BitVec 2) {k : Nat} (low : BitVec k) : BitVec n :=
  (top.setWidth n <<< (n - 2)) ||| low.setWidth n

/-- R38, R40: the two uppermost bits of a word of `n` bits: `cmd[17:16]`, `rsp[17:16]`. -/
def topField {n : Nat} (w : BitVec n) : BitVec 2 :=
  w.extractLsb' (n - 2) 2

/-- The L1 operand that holds the bit sequence `s`, position 0 first. -/
def symbols {n : Nat} (s : BitVec n) : Operand :=
  (List.range n).map fun i => .bit (pos s i)

/-- The bit sequence an operand holds, when it has exactly `n` symbols and every one is a Bit (R100, R101). -/
def readBits : (n : Nat) → Operand → Option (BitVec n)
  | 0, [] => some 0#0
  | n + 1, .bit b :: rest => (readBits n rest).map (BitVec.cons b)
  | _, _ => none

end Sys2Proof.Machine
end

