-- ==== Sys2Proof/Machine/Operands.lean ====
section
/-!
DEFINITION. The checks of an operation's operands: which of the two operand errors applies (60_exceptions R100, R101). An
operation is described by its list of operands, each with the width it requires.
-/

namespace Sys2Proof.Machine

/-- R100: some operand does not have its required fixed width. For CONFIGURE both operands count (R103). -/
def wrongLength (operands : List (Nat × Operand)) : Bool :=
  operands.any fun p => p.2.length != p.1

/-- R101: some element of some operand is not a Bit. DEDUCED (log 5): the cause is counted whatever the operand's length;
R103's order then reports InvalidLength first, so under this spec's order it is reported for operands of the right length
only, as R101 says. -/
def badSymbol (operands : List (Nat × Operand)) : Bool :=
  operands.any fun p => !p.2.all Symbol.isBit

end Sys2Proof.Machine
end

