-- ==== Sys2Proof/Config.lean ====
section
/-!
DEFINITION. The parameters 00_scope R7 leaves open. The S-boxes, the opcode values, the status codes, `ERR_PRIORITY` and
`RESERVED_POLICY` are the fields of `Params`; what depends on one takes it as an argument, and the values this spec gives them are
`Machine.params` (Machine/Params.lean). `CMD_W` and `RSP_W` are the width arguments of `decodeWith`, `encodeWith`,
`Machine.Response.wordWith` and `Machine.portStep`; the machine has 18 and 18 (`CmdWord`, `RspWord`).
`KEY_RESET` (no value, R24) is structural in `Machine.CE`. `LATENCY` (R127) is time, which the model does not have (log 11).
There is no free value in this model: 93_implementation_defined says nothing is undefined or unpredictable.
-/

namespace Sys2Proof

/-- The three error kinds (60_exceptions R100 to R102). -/
inductive ErrorKind where
  | invalidLength
  | invalidSymbol
  | notConfigured
  deriving DecidableEq, Repr

/-- R7 `ERR_PRIORITY`: the order in which the three kinds are looked for (R103); each kind has exactly one place. -/
structure ErrOrder where
  first : ErrorKind
  second : ErrorKind
  third : ErrorKind
  distinct : first ≠ second ∧ second ≠ third ∧ first ≠ third
  deriving DecidableEq, Repr

/-- R7 `RESERVED_POLICY`: what reserved command bits that are not zero do: the command fails (R42, the spec's choice),
or the bits are ignored (the alternative of U14). -/
inductive ReservedPolicy where
  | fail
  | ignore
  deriving DecidableEq, Repr

/-- R7 "opcode values": the 2-bit code of each operation (R39). Two operations never share a code, so the four codes are all the
values of the field. -/
structure OpCodes where
  derive : BitVec 2
  configure : BitVec 2
  encrypt : BitVec 2
  decrypt : BitVec 2
  distinct : [derive, configure, encrypt, decrypt].Nodup
  deriving DecidableEq, Repr

/-- R7 "status codes": the 2-bit code of each outcome (R40), all different. -/
structure StatusCodes where
  ok : BitVec 2
  invalidLength : BitVec 2
  invalidSymbol : BitVec 2
  notConfigured : BitVec 2
  distinct : [ok, invalidLength, invalidSymbol, notConfigured].Nodup
  deriving DecidableEq, Repr

/-- R62, R64: an S-box, `S[row][col]` with row, column and entry in 0..3. -/
abbrev SBox := Fin 4 → Fin 4 → Fin 4

/-- R62: the two S-boxes, "distinct constants". -/
structure Boxes where
  s0 : SBox
  s1 : SBox
  distinct : s0 ≠ s1

/-- The open parameters of R7. -/
structure Params where
  boxes : Boxes
  opcodes : OpCodes
  statusCodes : StatusCodes
  errPriority : ErrOrder
  reservedPolicy : ReservedPolicy

end Sys2Proof
end

