-- ==== Sys2Proof/Machine/Params.lean ====
section
/-!
DEFINITION. The values the spec gives the parameters of 00_scope R7: the standard S-DES boxes of 40_tables R64 (PRESUMED: the
spec itself marks them general knowledge, not in source; log 4), the opcode values of 30_encoding R39, the status
codes of R40, the error priority of 60_exceptions R103 (log 5) and the reserved-bit policy of 30_encoding R42 (log 6).
-/

namespace Sys2Proof.Machine

/-- R64, default contents of S0. PRESUMED (log 4): a claim that rests on these entries must say so. -/
def standardS0 : SBox :=
  ![![1, 0, 3, 2],
    ![3, 2, 1, 0],
    ![0, 2, 1, 3],
    ![3, 1, 3, 2]]

/-- R64, default contents of S1. PRESUMED (log 4): a claim that rests on these entries must say so. -/
def standardS1 : SBox :=
  ![![0, 1, 2, 3],
    ![2, 0, 1, 3],
    ![3, 0, 1, 0],
    ![2, 1, 0, 3]]

/-- The default boxes of R64; R62's one constraint, that they differ, is met. -/
def standardBoxes : Boxes :=
  ⟨standardS0, standardS1, fun h => absurd (congrFun (congrFun h 0) 0) (by decide)⟩

/-- R39, column `op` (D5). -/
def standardOpcodes : OpCodes :=
  ⟨0b00#2, 0b01#2, 0b10#2, 0b11#2, by decide⟩

/-- R40, field `status` (D6). -/
def standardStatus : StatusCodes :=
  ⟨0b00#2, 0b01#2, 0b10#2, 0b11#2, by decide⟩

/-- R103: InvalidLength, then InvalidSymbol, then NotConfigured (D8). -/
def standardOrder : ErrOrder :=
  ⟨.invalidLength, .invalidSymbol, .notConfigured, by decide⟩

/-- The parameters of this machine, column "value in this spec" of R7. -/
def params : Params where
  boxes := standardBoxes
  opcodes := standardOpcodes
  statusCodes := standardStatus
  errPriority := standardOrder
  reservedPolicy := .fail

end Sys2Proof.Machine
end

