-- ==== Sys2Proof/Syntax.lean ====
section
/-!
DEFINITION. The instructions: the four operations of 30_encoding R35, as L1 commands (R36), whose operands are symbol
sequences of any length. There is no fifth operation.
-/

namespace Sys2Proof

/-- R35, R36: an L1 command, one constructor for each row of spec/opcode_table.json. -/
inductive Instr where
  /-- DERIVE `master` (R71). -/
  | derive (master : Operand)
  /-- CONFIGURE `a`, `b` (R80). -/
  | configure (a b : Operand)
  /-- ENCRYPT `m` (R86). -/
  | encrypt (m : Operand)
  /-- DECRYPT `c` (R87). -/
  | decrypt (c : Operand)
  deriving DecidableEq, Repr

end Sys2Proof
end

