-- ==== Sys2Proof/WellFormed.lean ====
section
/-!
DEFINITION. The well-formed instructions: the L1 commands that have an L2 encoding, each operand of the "required fixed
width (10 for master key, 8 for subkeys/blocks)" and made of Bits alone (60_exceptions R100, R101; 30_encoding R45).
The machine gives the other commands a meaning too: an error response.
-/

namespace Sys2Proof

/-- An operand of exactly `n` symbols, all of them Bits. -/
def Operand.fits (n : Nat) (x : Operand) : Bool :=
  x.length == n && x.all Symbol.isBit

/-- The commands whose operands pass the length and symbol checks of R71, R80, R86, R87. -/
def Instr.wellFormed : Instr → Bool
  | .derive master => Operand.fits 10 master
  | .configure a b => Operand.fits 8 a && Operand.fits 8 b
  | .encrypt m => Operand.fits 8 m
  | .decrypt c => Operand.fits 8 c

end Sys2Proof
end

