-- ==== Sys2Proof/Decode.lean ====
section
/-!
DEFINITION. The command word (30_encoding R38), the opcode map (R39), the decoder (R41, R42), total on all words, and
after it the encoder, for any parameters of 00_scope R7 and then for this machine. `Verdict.bad` is the decoder's rejection by name; it still says which operation the word selects.
-/

namespace Sys2Proof

/-- R35: the operation a word selects. -/
inductive Mnemonic where
  | derive
  | configure
  | encrypt
  | decrypt
  deriving DecidableEq, Repr

/-- R39, column `op`, under an assignment of opcode values (R7). -/
def OpCodes.code (codes : OpCodes) : Mnemonic → BitVec 2
  | .derive => codes.derive
  | .configure => codes.configure
  | .encrypt => codes.encrypt
  | .decrypt => codes.decrypt

/-- R39, column `op`: the opcode of an operation in this machine. -/
def opcode (m : Mnemonic) : BitVec 2 :=
  Machine.params.opcodes.code m

/-- R39, column `match`: the word with the operation's opcode and zeros. -/
def matchOf (m : Mnemonic) : CmdWord :=
  Machine.packWord 18 (opcode m) 0x0000#16

/-- R39, column `mask`, the same in all four rows: all ones in the opcode field. -/
def opMask : CmdWord :=
  Machine.packWord 18 0b11#2 0x0000#16

/-- R39: the operation the opcode field selects; the four codes are all the values of the field (R43). -/
def operationOf (codes : OpCodes) {n : Nat} (w : BitVec n) : Mnemonic :=
  if Machine.topField w = codes.derive then .derive
  else if Machine.topField w = codes.configure then .configure
  else if Machine.topField w = codes.encrypt then .encrypt
  else .decrypt

/-- R39: the operation a word of this machine selects. -/
def mnemonicOf (w : CmdWord) : Mnemonic :=
  operationOf Machine.params.opcodes w

/-- R38: `data`, all bits below the opcode. -/
def dataField {n : Nat} (w : BitVec n) : BitVec (n - 2) :=
  w.extractLsb' 0 (n - 2)

/-- R42: the reserved bits of an operation with `used` operand bits are zero: the bits of `data` above its operands (log 19 for a
word wider than 18 bits). -/
def reservedClear (used : Nat) {n : Nat} (w : BitVec n) : Bool :=
  w.extractLsb' used (n - 2 - used) == 0#(n - 2 - used)

/-- The operation of an instruction. -/
def Instr.mnemonic : Instr → Mnemonic
  | .derive _ => .derive
  | .configure _ _ => .configure
  | .encrypt _ => .encrypt
  | .decrypt _ => .decrypt

/-- R41: what a command word decodes to: an L1 command, or the verdict `Bad`. `bad` carries the command as the word presents
it, its whole data field as the operand (R42: "such a word presents an operand wider than the operation's required fixed
width"). DEDUCED, log 7: no effect depends on that operand. -/
inductive Verdict where
  | command (i : Instr)
  | bad (presented : Instr)
  deriving DecidableEq, Repr

/-- R42 under a reserved-bit policy: a word whose reserved bits are not all zero is `Bad`, unless they are ignored. -/
def reservedVerdict (policy : ReservedPolicy) (reservedClear : Bool) (i presented : Instr) : Verdict :=
  if reservedClear || policy == .ignore then .command i else .bad presented

/-- R41: `decode(cmd)`, with the parameters of R7 and the width `CMD_W` as arguments. At 18 bits CONFIGURE has no reserved bits. -/
def decodeWith (p : Params) {n : Nat} (w : BitVec n) : Verdict :=
  match operationOf p.opcodes w with
  | .derive => reservedVerdict p.reservedPolicy (reservedClear 10 w)
      (.derive (Machine.symbols (w.extractLsb' 0 10))) (.derive (Machine.symbols (dataField w)))
  | .configure => reservedVerdict p.reservedPolicy (reservedClear 16 w)
      (.configure (Machine.symbols (w.extractLsb' 8 8)) (Machine.symbols (w.extractLsb' 0 8)))
      (.configure (Machine.symbols (w.extractLsb' 8 (n - 10))) (Machine.symbols (w.extractLsb' 0 8)))
  | .encrypt => reservedVerdict p.reservedPolicy (reservedClear 8 w)
      (.encrypt (Machine.symbols (w.extractLsb' 0 8))) (.encrypt (Machine.symbols (dataField w)))
  | .decrypt => reservedVerdict p.reservedPolicy (reservedClear 8 w)
      (.decrypt (Machine.symbols (w.extractLsb' 0 8))) (.decrypt (Machine.symbols (dataField w)))

/-- R41: the decoder of this machine. -/
def decode (w : CmdWord) : Verdict :=
  decodeWith Machine.params w

/-- The instruction a verdict is about, decoded or presented. -/
def Verdict.instr : Verdict → Instr
  | .command i => i
  | .bad i => i

/-- R38: the command word of an instruction, `none` where it has no L2 encoding (R45), with the opcode values of R7 and the width
`CMD_W` as arguments: operands right-aligned (D4), CONFIGURE's first one in the byte above its second. -/
def encodeWith (p : Params) (n : Nat) : Instr → Option (BitVec n)
  | .derive master => (Machine.readBits 10 master).map fun v => Machine.packWord n (p.opcodes.code .derive) v
  | .configure a b =>
    match Machine.readBits 8 a, Machine.readBits 8 b with
    | some k1, some k2 => some (Machine.packWord n (p.opcodes.code .configure) (k1 ++ k2 : BitVec 16))
    | _, _ => none
  | .encrypt m => (Machine.readBits 8 m).map fun v => Machine.packWord n (p.opcodes.code .encrypt) v
  | .decrypt c => (Machine.readBits 8 c).map fun v => Machine.packWord n (p.opcodes.code .decrypt) v

/-- R38: the encoder of this machine. -/
def encode (i : Instr) : Option CmdWord :=
  encodeWith Machine.params 18 i

/-- The instruction the decoder reads from a table word of `nbits` bits, numbered as spec/opcode_table.json numbers them; the
command word has 18 bits (R38), and a number that needs more is no command word (log 14). A `Bad` word still selects its
row's operation (R39), and the answer is that instruction as presented (log 7). -/
def decodeTableWord (nbits w : Nat) : Option Instr :=
  if w < 2 ^ min nbits 18 then some (decode (BitVec.ofNat 18 w)).instr else none

end Sys2Proof
end

