-- ==== Sys2Proof/Machine/State.lean ====
section
/-!
DEFINITION. The machine's state as plain data. The spec's whole state is the triple `(cfg, K1, K2)` (10_state R13 to R15, R20),
here `CE`. The other two fields of `State` are the model's own: what the host will present at the input ports, and what the
output ports have shown (logs 1 and 2). Fault, refusal, and the state after reset (10_state R24, 70_reset R120).
-/

namespace Sys2Proof.Machine

/-- R24's recommended type of the cipher engine's state: the constructor is `cfg` (R13), and `K1`, `K2` have a value exactly
when `cfg = 1` (R14, R15; `KEY_RESET`: no value). -/
inductive CE where
  /-- `cfg = 0`: `K1` and `K2` have no value. -/
  | unconfigured
  /-- `cfg = 1`. -/
  | configured (k1 k2 : SubKey)
  deriving DecidableEq, Repr

/-- R36: an L1 response. -/
inductive Response where
  /-- DERIVE's two subkeys. -/
  | okKeys (k1 k2 : SubKey)
  /-- CONFIGURE's `void`. -/
  | okDone
  /-- The block of ENCRYPT or DECRYPT. -/
  | okBlock (b : Block)
  /-- An error carries its kind and no data. -/
  | err (kind : ErrorKind)
  deriving DecidableEq, Repr

/-- R37: the input ports at one rising edge of `clk`, with a command word of `CMD_W` bits (R7). -/
structure InputPorts (cmdW : Nat) where
  rst : Bool
  cmdValid : Bool
  cmd : BitVec cmdW
  deriving DecidableEq, Repr

/-- R37: the output ports in one cycle, with a response word of `RSP_W` bits (R7). -/
structure OutputPorts (rspW : Nat) where
  rspValid : Bool
  rsp : BitVec rspW
  deriving DecidableEq, Repr

/-- The input ports of this machine: 18 bits of command. -/
abbrev PortIn := InputPorts 18

/-- The output ports of this machine: 18 bits of response. -/
abbrev PortOut := OutputPorts 18

/-- The state of the core, with the host's side of the port beside it. -/
structure State where
  /-- `cfg`, `K1`, `K2` (R13, R14, R15). -/
  ce : CE
  /-- The model's own (log 1): the inputs the host will present, the next edge first. -/
  inputs : List PortIn
  /-- The model's own (log 2): the outputs shown so far, oldest first. No step reads them (R20). -/
  outputs : List PortOut
  deriving DecidableEq, Repr

/-- Why the machine stops with a fault. No constructor: an error is a defined response of a total step (60_exceptions R107), no
operation can block (20_memory R34) and every command is answered (70_reset R128), so nothing raises a fault. -/
inductive Fault where
  deriving DecidableEq, Repr

/-- Why an instruction has no meaning. -/
inductive Refusal where
  /-- Raised by an arm of `exec` for an instruction without a meaning; no arm raises it. Safe: the run stops there. -/
  | notModelled (mnemonic : String)
  deriving DecidableEq, Repr

/-- R24, R120: the state after reset: Unconfigured, the keys without value. Nothing is presented and nothing has been shown
(DESIGN CHOICE, logs 1 and 2). -/
def State.reset : State where
  ce := .unconfigured
  inputs := []
  outputs := []

end Sys2Proof.Machine
end

