-- ==== Sys2Proof/Machine/Flags.lean ====
section
/-!
DEFINITION. The flag `cfg` and the register views of the cipher engine (10_state R13 to R15), and the error computation: which
kinds apply to a command and which one is reported (60_exceptions R100 to R103).
-/

namespace Sys2Proof.Machine

/-- R13: the 1-bit flag `cfg`, 0 Unconfigured, 1 Configured. -/
def CE.cfg : CE → BitVec 1
  | .unconfigured => 0#1
  | .configured _ _ => 1#1

/-- R14: `K1`, absent until a CONFIGURE succeeds (R24). -/
def CE.k1 : CE → Option SubKey
  | .unconfigured => none
  | .configured k1 _ => some k1

/-- R15: `K2`, absent until a CONFIGURE succeeds (R24). -/
def CE.k2 : CE → Option SubKey
  | .unconfigured => none
  | .configured _ k2 => some k2

/-- R100 to R102: which error kinds apply to a command with the given operands; `gated` says that the operation needs the keys
and `cfg` is 0. -/
def causes (operands : List (Nat × Operand)) (gated : Bool) : ErrorKind → Bool
  | .invalidLength => wrongLength operands
  | .invalidSymbol => badSymbol operands
  | .notConfigured => gated

/-- R103: the one kind that is reported when at least one applies: the first that applies in the order. -/
def report (order : ErrOrder) (applies : ErrorKind → Bool) : ErrorKind :=
  bif applies order.first then order.first
  else bif applies order.second then order.second
  else order.third

end Sys2Proof.Machine
end

