-- ==== Sys2Proof/Machine/Ops.lean ====
section
/-!
DEFINITION. The named operations on the state: loading the keys, error entry, the response word (30_encoding R40), answering a
command at the port, and the three kinds of edge (R37): reset, command, idle.
Return from an error: there is none and nothing to restore (60_exceptions R106).
-/

namespace Sys2Proof.Machine

/-- R80: `K1 <- a; K2 <- b; cfg <- 1`, all three in the same step. -/
def loadKeys (a b : SubKey) (_old : CE) : CE :=
  .configured a b

/-- R104: error entry. No state is changed, nothing is saved, and the response carries the kind alone. -/
def raiseError (order : ErrOrder) (applies : ErrorKind → Bool) (ce : CE) : CE × Response :=
  (ce, .err (report order applies))

/-- R40, R100 to R102: the status of a response, under an assignment of status codes (R7). -/
def statusOf (codes : StatusCodes) : Response → BitVec 2
  | .okKeys _ _ => codes.ok
  | .okDone => codes.ok
  | .okBlock _ => codes.ok
  | .err .invalidLength => codes.invalidLength
  | .err .invalidSymbol => codes.invalidSymbol
  | .err .notConfigured => codes.notConfigured

/-- R40: the result field of a response; no data beside an error. -/
def rdataOf : Response → BitVec 16
  | .okKeys k1 k2 => k1 ++ k2
  | .okDone => 0x0000#16
  | .okBlock b => 0x00#8 ++ b
  | .err _ => 0x0000#16

/-- R40: the response word, with the status codes and the width `RSP_W` of R7 as arguments: the status in the two uppermost bits, the
result field right-aligned. -/
def Response.wordWith (codes : StatusCodes) (n : Nat) (r : Response) : BitVec n :=
  packWord n (statusOf codes r) (rdataOf r)

/-- R40: the response word of this machine, `status` in bits 17:16 and `rdata` in bits 15:0. -/
def Response.word (r : Response) : RspWord :=
  r.wordWith params.statusCodes 18

/-- R40: `rsp[17:16]`. -/
def statusField {n : Nat} (r : BitVec n) : BitVec 2 :=
  topField r

/-- R40: `rsp[15:0]`. -/
def rdataField {n : Nat} (r : BitVec n) : BitVec 16 :=
  r.extractLsb' 0 16

/-- R37: the outputs of a cycle without a response. -/
def noResponse {rspW : Nat} : OutputPorts rspW where
  rspValid := false
  rsp := 0#rspW

/-- R37 (b), R40: the outputs of a command's cycle, under the parameters of R7. -/
def responseWith (codes : StatusCodes) (rspW : Nat) (r : Response) : OutputPorts rspW where
  rspValid := true
  rsp := r.wordWith codes rspW

/-- R37 (b), R40: the outputs of a command's cycle in this machine. -/
def responseOut (r : Response) : PortOut :=
  responseWith params.statusCodes 18 r

/-- Show the outputs of one cycle and take the new state of the cipher engine. -/
def settle (s : State) (ce : CE) (out : PortOut) : State :=
  { s with ce := ce, outputs := s.outputs ++ [out] }

/-- R37 (b): a command ends with its new state and its response in the same step. -/
def answer (s : State) (result : CE × Response) : State :=
  settle s result.1 (responseOut result.2)

/-- R42: a `Bad` word gives `Err(InvalidLength)` and leaves the state unchanged. -/
def badCommand (s : State) : State :=
  answer s (s.ce, .err .invalidLength)

/-- R120: the reset step; a command presented with it is ignored and gets no response. -/
def resetEdge (s : State) : State :=
  settle s .unconfigured noResponse

/-- R37 (c): the idle step; the state is unchanged. -/
def idleEdge (s : State) : State :=
  settle s s.ce noResponse

/-- R37: what happens at an edge. -/
inductive PortEvent (cmdW : Nat) where
  | reset
  | idle
  | command (w : BitVec cmdW)
  deriving DecidableEq, Repr

/-- R37: exactly one of the three; reset wins over a command (D19). -/
def portEvent {cmdW : Nat} (p : InputPorts cmdW) : PortEvent cmdW :=
  if p.rst then .reset else if p.cmdValid then .command p.cmd else .idle

/-- The input ports of an edge at which the host does nothing (R129, row "idle"). -/
def idleIn : PortIn where
  rst := false
  cmdValid := false
  cmd := 0#18

/-- R129, row "command": the input ports that present the word `w`. -/
def commandIn {cmdW : Nat} (w : BitVec cmdW) : InputPorts cmdW where
  rst := false
  cmdValid := true
  cmd := w

/-- R129, row "reset". -/
def resetIn : PortIn where
  rst := true
  cmdValid := false
  cmd := 0#18

/-- The input ports at the next edge; a host that has nothing more to present idles (log 1). -/
def nextInput (s : State) : PortIn :=
  s.inputs.headD idleIn

/-- The edge is past: the host moves to its next input (R18: the position in the list belongs to the host). -/
def consume (s : State) : State :=
  { s with inputs := s.inputs.tail }

/-- The host presents `p` at the next edge, before anything it had in mind. -/
def present (p : PortIn) (s : State) : State :=
  { s with inputs := p :: s.inputs }

end Sys2Proof.Machine
end

