-- ==== Sys2Proof/Machine/Tables.lean ====
section
/-!
DEFINITION. The constants and primitives of 40_tables_and_primitives: the six permutation tables as the document prints them,
`permute`, the S-box indices and the S-box lookup (R50 to R58, R62, R63, R66). Constants, never state (10_state R16).
-/

namespace Sys2Proof.Machine

/-- R50: a PermutationTable of arity `(n, m)`: `m` entries, each a position of the input counted from 1. -/
structure PermTable (n m : Nat) where
  entries : List Nat
  arity : entries.length = m
  inRange : ∀ j ∈ entries, 1 ≤ j ∧ j ≤ n
  deriving DecidableEq, Repr

/-- `T[i]`: the input position, counted from 1, that output position `i` (from 0) takes its bit from. -/
def PermTable.entry {n m : Nat} (T : PermTable n m) (i : Nat) : Nat :=
  T.entries.getD i 0

/-- R57: `out[i] = x[T[i] - 1]` for `i = 0 .. m-1`. -/
def permute {n m : Nat} (T : PermTable n m) (x : BitVec n) : BitVec m :=
  ofPositions m fun i => pos x (T.entry i - 1)

/-- R51. -/
def P10 : PermTable 10 10 := ⟨[3, 5, 2, 7, 4, 10, 1, 9, 8, 6], by decide, by decide⟩

/-- R52: 10 bits in, 8 bits out (C3). -/
def P8 : PermTable 10 8 := ⟨[6, 3, 7, 4, 8, 5, 10, 9], by decide, by decide⟩

/-- R53: the initial permutation. -/
def IP : PermTable 8 8 := ⟨[2, 6, 3, 1, 4, 8, 5, 7], by decide, by decide⟩

/-- R54: IP⁻¹, the final permutation. -/
def IPinv : PermTable 8 8 := ⟨[4, 1, 3, 5, 7, 2, 8, 6], by decide, by decide⟩

/-- R55: the expansion-permutation, 4 bits in, 8 bits out. -/
def EP : PermTable 4 8 := ⟨[4, 1, 2, 3, 2, 3, 4, 1], by decide, by decide⟩

/-- R56. -/
def P4 : PermTable 4 4 := ⟨[2, 4, 3, 1], by decide, by decide⟩

/-- R63, R67: `2*a + b` for two bits, in 0..3. -/
def bitPair (a b : Bool) : Fin 4 :=
  ⟨2 * a.toNat + b.toNat, by cases a <;> cases b <;> decide⟩

/-- R63: `row = 2*h[0] + h[3]`, the outer bits. -/
def rowIndex (h : Half) : Fin 4 :=
  bitPair (pos h 0) (pos h 3)

/-- R63: `col = 2*h[1] + h[2]`, the inner bits. -/
def colIndex (h : Half) : Fin 4 :=
  bitPair (pos h 1) (pos h 2)

/-- R66: the entry as a 2-bit sequence, fixed width, most significant bit first. -/
def sbox (S : SBox) (h : Half) : BitVec 2 :=
  seq 2 (S (rowIndex h) (colIndex h)).val

end Sys2Proof.Machine
end

