-- ==== Sys2Proof/Machine/Cipher.lean ====
section
/-!
DEFINITION. The cipher engine CE (42_cipher): `F`, `Round`, `crypt` at L0 for arbitrary boxes, and CONFIGURE, ENCRYPT, DECRYPT
at L0, at L1 and as meanings of the instructions.
-/

namespace Sys2Proof.Machine

/-- R82: the round function, S0 on the half that holds position 0. -/
def F (B : Boxes) (key : SubKey) (half : Half) : Half :=
  let x := permute EP half ^^^ key
  sbox B.s0 (slice x 0 4) ++ sbox B.s1 (slice x 4 4)

/-- R83: the Feistel round; the right half passes through unchanged, and nothing is swapped. -/
def Round (B : Boxes) (key : SubKey) (left4 right4 : Half) : BitVec 8 :=
  (left4 ^^^ permute P4 (F B key right4)) ++ right4

/-- R84: the datapath of ENCRYPT and DECRYPT, with one swap, between the rounds. -/
def crypt (B : Boxes) (ka kb : SubKey) (block : Block) : Block :=
  let ip := permute IP block
  let r1 := Round B ka (slice ip 0 4) (slice ip 4 4)
  let r2 := Round B kb (slice r1 4 4) (slice r1 0 4)
  permute IPinv r2

/-- R86 at L0: round 1 under `K1`, round 2 under `K2`. -/
def encrypt (B : Boxes) (k1 k2 : SubKey) (m : Block) : Block :=
  crypt B k1 k2 m

/-- R87 at L0: round 1 under `K2`, round 2 under `K1`. -/
def decrypt (B : Boxes) (k1 k2 : SubKey) (c : Block) : Block :=
  crypt B k2 k1 c

/-- R80 at L1: both keys and `cfg` together on success, nothing on any error. -/
def configureCall (p : Params) (a b : Operand) (ce : CE) : CE × Response :=
  match readBits 8 a, readBits 8 b with
  | some k1, some k2 => (loadKeys k1 k2 ce, .okDone)
  | _, _ => raiseError p.errPriority (causes [(8, a), (8, b)] false) ce

/-- What R86 and R87 share at L1: the checks, then a function of the two keys and the block. -/
def blockCall (p : Params) (f : SubKey → SubKey → Block → Block) (x : Operand) (ce : CE) : CE × Response :=
  match ce, readBits 8 x with
  | .configured k1 k2, some b => (ce, .okBlock (f k1 k2 b))
  | _, _ => raiseError p.errPriority (causes [(8, x)] (ce.cfg == 0#1)) ce

/-- R86 at L1. -/
def encryptCall (p : Params) (m : Operand) (ce : CE) : CE × Response :=
  blockCall p (encrypt p.boxes) m ce

/-- R87 at L1. -/
def decryptCall (p : Params) (c : Operand) (ce : CE) : CE × Response :=
  blockCall p (decrypt p.boxes) c ce

/-- CONFIGURE (R80). -/
def execConfigure (a b : Operand) (s : State) : Host.Outcome State Fault Refusal :=
  .next (answer s (configureCall params a b s.ce))

/-- ENCRYPT (R86). -/
def execEncrypt (m : Operand) (s : State) : Host.Outcome State Fault Refusal :=
  .next (answer s (encryptCall params m s.ce))

/-- DECRYPT (R87). -/
def execDecrypt (c : Operand) (s : State) : Host.Outcome State Fault Refusal :=
  .next (answer s (decryptCall params c s.ce))

end Sys2Proof.Machine
end

