-- ==== Sys2Proof/Machine/KeySchedule.lean ====
section
/-!
DEFINITION. The key schedule unit KS and DERIVE (41_key_schedule R70, R71): at L0 the function, at L1 the checked call, and the
meaning of the instruction.
-/

namespace Sys2Proof.Machine

/-- R71, steps 2 and 3: each 5-bit half of `x` rotated left by `r` on its own, and the halves concatenated. -/
def rotateHalves (x : BitVec 10) (r : Nat) : BitVec 10 :=
  rotl (slice x 0 5) r ++ rotl (slice x 5 5) r

/-- R71, steps 1 to 3: `p10_1`. -/
def firstRotation (master : MasterKey) : BitVec 10 :=
  rotateHalves (permute P10 master) 1

/-- R71, step 5: `p10_2`, rotated by 2 more from `left1`, `right1`. -/
def secondRotation (master : MasterKey) : BitVec 10 :=
  rotateHalves (firstRotation master) 2

/-- R71 at L0: `DERIVE(master) = (k1, k2)`. -/
def derive (master : MasterKey) : SubKey × SubKey :=
  (permute P8 (firstRotation master), permute P8 (secondRotation master))

/-- R71 at L1, under an error priority: allowed in both states of CE and writing none (R22). -/
def deriveCall (p : Params) (master : Operand) (ce : CE) : CE × Response :=
  match readBits 10 master with
  | some m => (ce, .okKeys (derive m).1 (derive m).2)
  | none => raiseError p.errPriority (causes [(10, master)] false) ce

/-- DERIVE (R71). -/
def execDerive (master : Operand) (s : State) : Host.Outcome State Fault Refusal :=
  .next (answer s (deriveCall params master s.ce))

end Sys2Proof.Machine
end

