-- ==== Sys2Proof/Machine/Dispatch.lean ====
section
/-!
DEFINITION. One arm for each instruction, each one direct call of its meaning.
-/

namespace Sys2Proof.Machine

def exec (i : Instr) (s : State) : Host.Outcome State Fault Refusal :=
  match i with
  | .derive master => Sys2Proof.Machine.execDerive master s
  | .configure a b => Sys2Proof.Machine.execConfigure a b s
  | .encrypt m => Sys2Proof.Machine.execEncrypt m s
  | .decrypt c => Sys2Proof.Machine.execDecrypt c s

end Sys2Proof.Machine
end

