-- ==== Sys2Proof/Machine/Step.lean ====
section
/-!
DEFINITION. One step: one rising edge of `clk` (30_encoding R37). The core fetches nothing (10_state R18): it runs the command
the host presents at the input ports, which is where `withFetchWord` places one.
-/

namespace Sys2Proof.Machine

/-- R37, R41: the reset step, the idle step, or the command step, in which a `Bad` word is answered with `InvalidLength` and any
other word's command is executed. -/
def step (s : State) : Host.Outcome State Fault Refusal :=
  match portEvent (nextInput s) with
  | .reset => .next (resetEdge (consume s))
  | .idle => .next (idleEdge (consume s))
  | .command w =>
    match decode w with
    | .command i => exec i (consume s)
    | .bad _ => .next (badCommand (consume s))

/-- R123: `k` steps, one for each edge. -/
def run : Nat → State → Host.Outcome State Fault Refusal
  | 0, s => .next s
  | k + 1, s =>
    match step s with
    | .next t => run k t
    | .fault f => .fault f
    | .refused r => .refused r

/-- The host presents the command word `w` at the next edge (R129); nothing else changes. The 18 bits of the word are all there
are (R38), whatever width `nbits` the table's row is given in whole bytes. -/
def State.withFetchWord (s : State) (nbits w : Nat) : State :=
  present (commandIn (BitVec.ofNat 18 (w % 2 ^ nbits))) s

end Sys2Proof.Machine
end

