-- ==== Sys2Proof/Machine/Listing.lean ====
section
/-!
DEFINITION. The host's listings (30_encoding R45 to R47): lines, the host variables `$`, the pseudo-instructions and their
expansions, and the run of a listing (10_state R18: the position in the list is the host's). Nothing here is state of the core.
-/

namespace Sys2Proof.Machine

/-- R45, R46, R47: one line of a listing. -/
inductive Line where
  /-- A mnemonic with its operands written out. -/
  | call (i : Instr)
  /-- `RESET`: one step with `rst = 1`. -/
  | reset
  /-- `WORD w`: a raw command word. -/
  | word (w : CmdWord)
  /-- `CONFIGURE $`. -/
  | configureKeys
  /-- `ENCRYPT $`. -/
  | encryptLast
  /-- `DECRYPT $`. -/
  | decryptLast
  /-- `SETKEY m`. -/
  | setkey (m : Operand)
  /-- `ROUNDTRIP b`. -/
  | roundtrip (b : Operand)
  deriving DecidableEq, Repr

/-- R47: the expansion of a pseudo-instruction; every other line stands for itself. -/
def expand : Line → List Line
  | .setkey m => [.call (.derive m), .configureKeys]
  | .roundtrip b => [.call (.encrypt b), .decryptLast]
  | line => [line]

/-- R46: what `$` can stand for after the most recent response: a successful DERIVE's `rdata`, or the block of a successful ENCRYPT
or DECRYPT. The host's copies. -/
structure HostCopy where
  keys : Option (BitVec 16)
  block : Option Block
  deriving DecidableEq, Repr

/-- Nothing to refer to: no response yet, an error, or a CONFIGURE's. -/
def noCopy : HostCopy where
  keys := none
  block := none

/-- R46: the host's copies after the response `rsp` to a command of operation `sent`. -/
def copyAfter (sent : Mnemonic) (rsp : RspWord) : HostCopy :=
  if statusField rsp = params.statusCodes.ok then
    match sent with
    | .derive => { keys := some (rdataField rsp), block := none }
    | .configure => noCopy
    | .encrypt => { keys := none, block := some (rsp.extractLsb' 0 8) }
    | .decrypt => { keys := none, block := some (rsp.extractLsb' 0 8) }
  else noCopy

/-- The response the host reads in the step it has just seen. -/
def lastResponse (s : State) : RspWord :=
  (s.outputs.getLastD noResponse).rsp

/-- Run on when the step gave a next state. -/
def afterStep (sent : Mnemonic) : Host.Outcome State Fault Refusal → Option (State × HostCopy)
  | .next t => some (t, copyAfter sent (lastResponse t))
  | _ => none

/-- One command word through the port. -/
def runWord (w : CmdWord) (s : State) : Option (State × HostCopy) :=
  afterStep (mnemonicOf w) (step (present (commandIn w) s))

/-- One command: through the port where it has an encoding; otherwise at L1, which is all such a line has (R45). -/
def runCall (i : Instr) (s : State) : Option (State × HostCopy) :=
  match encode i with
  | some w => runWord w s
  | none => afterStep i.mnemonic (exec i s)

/-- One line. A `$` without the response it needs has no meaning (R46), and RESET, which gets no response, leaves the host's copies
as they are (DEDUCED, log 15). -/
def runLine (line : Line) (s : State) (copy : HostCopy) : Option (State × HostCopy) :=
  match line with
  | .call i => runCall i s
  | .reset =>
    match step (present resetIn s) with
    | .next t => some (t, copy)
    | _ => none
  | .word w => runWord w s
  | .configureKeys => copy.keys.bind fun d => runWord (matchOf .configure ||| d.setWidth 18) s
  | .encryptLast => copy.block.bind fun b => runCall (.encrypt (symbols b)) s
  | .decryptLast => copy.block.bind fun b => runCall (.decrypt (symbols b)) s
  | .setkey _ => none
  | .roundtrip _ => none

/-- Lines without pseudo-instructions, in order, each command advancing the list whatever its status (R18). -/
def runExpanded : List Line → State → HostCopy → Option (State × HostCopy)
  | [], s, copy => some (s, copy)
  | line :: rest, s, copy => (runLine line s copy).bind fun r => runExpanded rest r.1 r.2

/-- A listing: expand the pseudo-instructions (R47), then run the lines. -/
def runListing (lines : List Line) (s : State) (copy : HostCopy) : Option (State × HostCopy) :=
  runExpanded (lines.flatMap expand) s copy

end Sys2Proof.Machine
end

