-- ==== Sys2Proof/Machine/Api.lean ====
section
/-!
DEFINITION. The core as a pure machine over `(cfg, K1, K2)` alone, for any parameters of 00_scope R7: the L1 step (30_encoding R36),
the L2 step (R41), the port at one edge (R37) and a run of edges (70_reset R123). `exec` and `step` are these at `params` and 18 bits,
with the host's lists beside them.
-/

namespace Sys2Proof.Machine

/-- R36: an L1 step, a total function of state and command; the four rules R35 names define it. -/
def l1Step (p : Params) (i : Instr) (ce : CE) : CE × Response :=
  match i with
  | .derive master => deriveCall p master ce
  | .configure a b => configureCall p a b ce
  | .encrypt m => encryptCall p m ce
  | .decrypt c => decryptCall p c ce

/-- R41: the L2 step. A `Bad` word is answered with `InvalidLength` whatever `ERR_PRIORITY` is. In this machine's order that is R41 and
R42. DESIGN CHOICE under another order (log 5): R42 rests the answer to a `Bad` ENCRYPT or DECRYPT on an Unconfigured core on R103's
order, and the model does not consult `errPriority` there. -/
def l2Step (p : Params) {cmdW : Nat} (w : BitVec cmdW) (ce : CE) : CE × Response :=
  match decodeWith p w with
  | .command i => l1Step p i ce
  | .bad _ => (ce, .err .invalidLength)

/-- R37: the new state and the outputs at one edge (a Mealy machine), for a port with any `CMD_W` and `RSP_W` (R7). -/
def portStep (p : Params) {cmdW : Nat} (rspW : Nat) (input : InputPorts cmdW) (ce : CE) : CE × OutputPorts rspW :=
  match portEvent input with
  | .reset => (.unconfigured, noResponse)
  | .idle => (ce, noResponse)
  | .command w => ((l2Step p w ce).1, responseWith p.statusCodes rspW (l2Step p w ce).2)

/-- R29, R123: a run of edges, in the order presented: the final state and the outputs, one for each edge. -/
def portRun (p : Params) {cmdW : Nat} (rspW : Nat) (ce : CE) : List (InputPorts cmdW) → CE × List (OutputPorts rspW)
  | [] => (ce, [])
  | input :: rest =>
    let now := portStep p rspW input ce
    let later := portRun p rspW now.1 rest
    (later.1, now.2 :: later.2)

/-- R123: the observable outcome of a run: the responses, one for each command, in order. -/
def responses {rspW : Nat} (outputs : List (OutputPorts rspW)) : List (BitVec rspW) :=
  (outputs.filter OutputPorts.rspValid).map OutputPorts.rsp

end Sys2Proof.Machine
end

