-- ==== Sys2Proof/Safety.lean ====
section
/-!
DEFINITION. The terms claims use: what a safe run is (60_exceptions R107), what an output of the core may look like, which inputs
write the state (10_state R23), and the port's answers read straight off the tables of the spec (R23, R38, R40, R105).
-/

namespace Sys2Proof.Machine

/-- R107: the output is a response with a status other than 00. -/
def isError (o : PortOut) : Bool :=
  o.rspValid && statusField o.rsp != 0b00#2

/-- R107, "the usual safety premise for a host program": `k` steps complete and no response shown in them is an error. -/
def safeRun (k : Nat) (s : State) : Bool :=
  match run k s with
  | .next t => (t.outputs.drop s.outputs.length).all fun o => !isError o
  | _ => false

/-- R37, R40, R101: what an output may look like: zero while `rsp_valid = 0`; never status 10; no data with an error status. -/
def outputLegal (o : PortOut) : Bool :=
  (o.rspValid || o.rsp == 0#18) && statusField o.rsp != 0b10#2
    && (statusField o.rsp == 0b00#2 || rdataField o.rsp == 0x0000#16)

/-- Every output the core has shown is legal. -/
def outputsLegal (s : State) : Prop :=
  ∀ o ∈ s.outputs, outputLegal o = true

/-- The inputs of a command step that is a CONFIGURE (R38: `op = 01`). -/
def isConfigure (p : PortIn) : Bool :=
  !p.rst && p.cmdValid && p.cmd.extractLsb' 16 2 == 0b01#2

/-- The inputs that may write the state: reset and CONFIGURE (R22). -/
def isWriter (p : PortIn) : Bool :=
  p.rst || isConfigure p

/-- R23, the state after an edge, read off the table. -/
def tableState (ce : CE) (p : PortIn) : CE :=
  if p.rst then .unconfigured
  else if isConfigure p then .configured (p.cmd.extractLsb' 8 8) (p.cmd.extractLsb' 0 8)
  else ce

/-- R105, the rows of L2: the status a command word is answered with. -/
def tableStatus (ce : CE) (w : CmdWord) : BitVec 2 :=
  if w.extractLsb' 16 2 = 0b00#2 then (if w.extractLsb' 10 6 = 0#6 then 0b00#2 else 0b01#2)
  else if w.extractLsb' 16 2 = 0b01#2 then 0b00#2
  else if w.extractLsb' 8 8 ≠ 0#8 then 0b01#2
  else if ce = .unconfigured then 0b11#2
  else 0b00#2

/-- R40, the result field of a successful command word: two subkeys, nothing, or a block. -/
def tableData (B : Boxes) (ce : CE) (w : CmdWord) : BitVec 16 :=
  if w.extractLsb' 16 2 = 0b00#2 then
    (derive (w.extractLsb' 0 10)).1 ++ (derive (w.extractLsb' 0 10)).2
  else if w.extractLsb' 16 2 = 0b01#2 then 0x0000#16
  else
    match ce with
    | .unconfigured => 0x0000#16
    | .configured k1 k2 =>
      if w.extractLsb' 16 2 = 0b10#2 then 0x00#8 ++ encrypt B k1 k2 (w.extractLsb' 0 8)
      else 0x00#8 ++ decrypt B k1 k2 (w.extractLsb' 0 8)

/-- R37, R40, R105: the outputs at an edge, read off the tables. -/
def tableOutput (B : Boxes) (ce : CE) (p : PortIn) : PortOut :=
  if p.rst || !p.cmdValid then { rspValid := false, rsp := 0#18 }
  else if tableStatus ce p.cmd = 0b00#2 then
    { rspValid := true, rsp := 0b00#2 ++ tableData B ce p.cmd }
  else { rspValid := true, rsp := tableStatus ce p.cmd ++ 0x0000#16 }

/-- R29, R123: a run of edges, read off the tables: the final state, and one output for each edge. -/
def tableRun (B : Boxes) (ce : CE) : List PortIn → CE × List PortOut
  | [] => (ce, [])
  | p :: rest =>
    ((tableRun B (tableState ce p) rest).1, tableOutput B ce p :: (tableRun B (tableState ce p) rest).2)

/-- The state `s` with the cipher engine's new state and one more output, a response `w`; everything else as in `s`. -/
def afterCommand (s : State) (ce : CE) (w : RspWord) : State where
  ce := ce
  inputs := s.inputs
  outputs := s.outputs ++ [{ rspValid := true, rsp := w }]

/-- R105, column 1 with R28: the operands of a command, each with its required width. -/
def operandsOf : Instr → List (Nat × Operand)
  | .derive master => [(10, master)]
  | .configure a b => [(8, a), (8, b)]
  | .encrypt m => [(8, m)]
  | .decrypt c => [(8, c)]

/-- R22, column "reads K1, K2": the operations that need loaded keys. -/
def needsKeys : Instr → Bool
  | .derive _ => false
  | .configure _ _ => false
  | .encrypt _ => true
  | .decrypt _ => true

/-- The error kind of a response, if it is an error. -/
def errorOf : Response → Option ErrorKind
  | .err kind => some kind
  | .okKeys _ _ => none
  | .okDone => none
  | .okBlock _ => none

end Sys2Proof.Machine
end

