-- ==== Sys2Proof/Certificates/Slice0/Obligations.lean ====
section
/-!
DEFINITION. The statements for the provers, from the numbered rules of spec/: first the encodings, then sequences and tables,
the key schedule, the cipher engine, the errors, and the port with the two-state machine.
-/

open Sys2Proof Sys2Proof.Machine

/-! ### Encodings -/

/-- Decode and encode agree: every well-formed instruction has a command word (30_encoding R38), and that word decodes to it (R41),
with every operand at every value. -/
def Obligations.DecodeOfEncode : Prop :=
  ∀ i : Instr, i.wellFormed = true → ∃ w, encode i = some w ∧ decode w = .command i

/-- The other direction: a word that decodes to a command is the one word of that command, which is well formed; a word with the
verdict `Bad` is the word of no instruction (R41, R42). -/
def Obligations.EncodeOfDecode : Prop :=
  ∀ w : CmdWord,
    (∀ i, decode w = .command i → i.wellFormed = true ∧ encode i = some w) ∧
    (∀ j, decode w = .bad j → ∀ i, encode i ≠ some w)

/-- R39: a word selects the row with `w AND mask = match`, every word selects exactly one row, and what it decodes to is an
instruction of that row. For a word with the verdict `Bad` the last clause speaks of the instruction the model's verdict carries
(DEDUCED, log 7: R41's `Bad` carries nothing). -/
def Obligations.WordSelectsOneRow : Prop :=
  ∀ w : CmdWord,
    (∀ m : Mnemonic, w &&& opMask = matchOf m ↔ mnemonicOf w = m) ∧
    (decode w).instr.mnemonic = mnemonicOf w

/-- R41, R42, the decoder: reserved bits decide between a command and `Bad`, and the operands are the fields read as sequences. -/
def Obligations.DecodeFollowsFields : Prop :=
  ∀ w : CmdWord,
    (w.extractLsb' 16 2 = 0b00#2 → w.extractLsb' 10 6 = 0#6 →
      decode w = .command (.derive (symbols (w.extractLsb' 0 10)))) ∧
    (w.extractLsb' 16 2 = 0b00#2 → w.extractLsb' 10 6 ≠ 0#6 → ∃ j, decode w = .bad j) ∧
    (w.extractLsb' 16 2 = 0b01#2 →
      decode w = .command (.configure (symbols (w.extractLsb' 8 8)) (symbols (w.extractLsb' 0 8)))) ∧
    (w.extractLsb' 16 2 = 0b10#2 → w.extractLsb' 8 8 = 0#8 →
      decode w = .command (.encrypt (symbols (w.extractLsb' 0 8)))) ∧
    (w.extractLsb' 16 2 = 0b10#2 → w.extractLsb' 8 8 ≠ 0#8 → ∃ j, decode w = .bad j) ∧
    (w.extractLsb' 16 2 = 0b11#2 → w.extractLsb' 8 8 = 0#8 →
      decode w = .command (.decrypt (symbols (w.extractLsb' 0 8)))) ∧
    (w.extractLsb' 16 2 = 0b11#2 → w.extractLsb' 8 8 ≠ 0#8 → ∃ j, decode w = .bad j)

/-- Words written out from R38: one for each operation decodes as R41 says, and one with reserved bits set has R41's verdict `Bad`.
The instruction that verdict carries, its whole data field as operand, is the model's (DEDUCED, log 7). -/
def Obligations.SampleWordsDecode : Prop :=
  decode 0b00_000000_1010000010#18 = .command (.derive (symbols 0b1010000010#10)) ∧
  decode 0b01_10100100_01000011#18 = .command (.configure (symbols 0b10100100#8) (symbols 0b01000011#8)) ∧
  decode 0b10_00000000_00101000#18 = .command (.encrypt (symbols 0b00101000#8)) ∧
  decode 0b11_00000000_11011100#18 = .command (.decrypt (symbols 0b11011100#8)) ∧
  decode 0b10_11111111_00101000#18 = .bad (.encrypt (symbols 0b1111111100101000#16))

/-- R40: status and result field of every response. -/
def Obligations.ResponseWordFields : Prop :=
  (∀ k1 k2 : SubKey, statusField (Response.okKeys k1 k2).word = 0b00#2 ∧
    (Response.okKeys k1 k2).word.extractLsb' 8 8 = k1 ∧ (Response.okKeys k1 k2).word.extractLsb' 0 8 = k2) ∧
  Response.okDone.word = 0x00000#18 ∧
  (∀ b : Block, statusField (Response.okBlock b).word = 0b00#2 ∧
    (Response.okBlock b).word.extractLsb' 8 8 = 0x00#8 ∧ (Response.okBlock b).word.extractLsb' 0 8 = b) ∧
  (Response.err .invalidLength).word = 0x10000#18 ∧
  (Response.err .invalidSymbol).word = 0x20000#18 ∧
  (Response.err .notConfigured).word = 0x30000#18

/-! ### Sequences and tables -/

/-- R57: `out[i] = x[T[i] - 1]` for every position of the output, for a table of any arity. -/
def Obligations.PermuteByIndex : Prop :=
  ∀ (n m : Nat) (T : PermTable n m) (x : BitVec n) (i : Nat), i < m →
    pos (permute T x) i = pos x (T.entry i - 1)

/-- R59: the index law of the rotation, its one-step form, its neutral counts and its composition. -/
def Obligations.RotationLaws : Prop :=
  (∀ (n r : Nat) (x : BitVec n) (i : Nat), i < n → pos (rotl x r) i = pos x ((i + r) % n)) ∧
  (∀ (n : Nat) (x : BitVec (n + 1)), rotl x 1 = slice x 1 n ++ slice x 0 1) ∧
  (∀ (n : Nat) (x : BitVec n), rotl x 0 = x ∧ rotl x n = x) ∧
  (∀ (n a b : Nat) (x : BitVec n), rotl (rotl x a) b = rotl x (a + b))

/-- R60: a slice holds the positions it names, `a ++ b` puts `a` first, and split and concatenation are inverse, at every place
where a sequence may be split. -/
def Obligations.SplitThenConcatenate : Prop :=
  (∀ (n a len i : Nat) (s : BitVec n), i < len → pos (slice s a len) i = pos s (a + i)) ∧
  (∀ (n m i : Nat) (a : BitVec n) (b : BitVec m), pos (a ++ b) i = if i < n then pos a i else pos b (i - n)) ∧
  (∀ (k n : Nat) (s : BitVec (k + n)), slice s 0 k ++ slice s k n = s) ∧
  (∀ (k n : Nat) (a : BitVec k) (b : BitVec n), slice (a ++ b) 0 k = a ∧ slice (a ++ b) k n = b)

/-- R58 (a) to (d): which tables are bijections, what P8 selects, what EP repeats, and that IP and IP⁻¹ are mutual inverses. -/
def Obligations.TableProperties : Prop :=
  P10.entries.Perm [1, 2, 3, 4, 5, 6, 7, 8, 9, 10] ∧
  IP.entries.Perm [1, 2, 3, 4, 5, 6, 7, 8] ∧
  IPinv.entries.Perm [1, 2, 3, 4, 5, 6, 7, 8] ∧
  P4.entries.Perm [1, 2, 3, 4] ∧
  P8.entries.Perm [3, 4, 5, 6, 7, 8, 9, 10] ∧
  EP.entries.Perm [1, 1, 2, 2, 3, 3, 4, 4] ∧
  (∀ x : BitVec 8, permute IPinv (permute IP x) = x ∧ permute IP (permute IPinv x) = x)

/-- R63, R66: an S-box looks up row `2*h[0] + h[3]`, column `2*h[1] + h[2]`, and gives the entry as two bits, the more
significant first; for every box. -/
def Obligations.SboxLookup : Prop :=
  ∀ (S : SBox) (h : Half) (row col : Fin 4),
    row.val = 2 * (pos h 0).toNat + (pos h 3).toNat →
    col.val = 2 * (pos h 1).toNat + (pos h 2).toNat →
    (sbox S h).toNat = (S row col).val ∧
    (pos (sbox S h) 0).toNat = (S row col).val / 2 ∧ (pos (sbox S h) 1).toNat = (S row col).val % 2

/-- The reference boxes as maps of the 4-bit input, the table of 40_tables section 3. The 32 entries are the model's PRESUMED
choice (log 4; the spec marks them general knowledge, not in source): this statement rests on them. -/
def Obligations.ReferenceBoxMaps : Prop :=
  (List.range 16).map (fun h => (sbox params.boxes.s0 (seq 4 h)).toNat) = [1, 3, 0, 2, 3, 1, 2, 0, 0, 3, 2, 1, 1, 3, 3, 2] ∧
  (List.range 16).map (fun h => (sbox params.boxes.s1 (seq 4 h)).toNat) = [0, 2, 1, 0, 2, 1, 3, 3, 3, 2, 0, 1, 1, 0, 0, 3]

/-! ### The key schedule -/

/-- R71: DERIVE of every 10-bit key, with the document's six steps; the two error kinds, length first; and at L2 the operand field and the reserved bits.
In either state of CE, which stays as it is.
The two clauses on operands without an L2 encoding show the L1 error by the word of R40 on the port, which is the model's reading
(DEDUCED, log 10); at L2 no such command exists and status 10 never appears (R101). -/
def Obligations.DeriveRule : Prop :=
  ∀ s : State,
    (∀ master : MasterKey,
      let p10 := permute P10 master
      let left1 := rotl (slice p10 0 5) 1
      let right1 := rotl (slice p10 5 5) 1
      let k1 := permute P8 (left1 ++ right1)
      let left2 := rotl left1 2
      let right2 := rotl right1 2
      let k2 := permute P8 (left2 ++ right2)
      exec (.derive (symbols master)) s = .next (afterCommand s s.ce (0b00#2 ++ (k1 ++ k2 : BitVec 16)))) ∧
    (∀ x : Operand, x.length ≠ 10 → exec (.derive x) s = .next (afterCommand s s.ce 0x10000#18)) ∧
    (∀ x : Operand, x.length = 10 → x.all Symbol.isBit = false →
      exec (.derive x) s = .next (afterCommand s s.ce 0x20000#18)) ∧
    (∀ w : CmdWord, w.extractLsb' 16 2 = 0b00#2 → w.extractLsb' 10 6 = 0#6 →
      step (present (commandIn w) s) = exec (.derive (symbols (w.extractLsb' 0 10))) s) ∧
    (∀ w : CmdWord, w.extractLsb' 16 2 = 0b00#2 → w.extractLsb' 10 6 ≠ 0#6 →
      step (present (commandIn w) s) = .next (afterCommand s s.ce 0x10000#18))

/-- The closed form of 41_key_schedule section 3: each subkey bit is one master-key bit, at the 0-based positions listed. -/
def Obligations.DeriveClosedForm : Prop :=
  ∀ (master : MasterKey) (i : Nat), i < 8 →
    pos (derive master).1 i = pos master ([0, 6, 8, 3, 7, 2, 9, 5].getD i 0) ∧
    pos (derive master).2 i = pos master ([7, 2, 5, 4, 9, 1, 8, 0].getD i 0)

/-- 41_key_schedule section 3 (a): different master keys give different pairs of subkeys. -/
def Obligations.DeriveInjective : Prop :=
  ∀ a b : MasterKey, derive a = derive b → a = b

/-- 41_key_schedule section 3 (b): DERIVE commutes with XOR, component by component. -/
def Obligations.DeriveCommutesWithXor : Prop :=
  ∀ a b : MasterKey,
    (derive (a ^^^ b)).1 = (derive a).1 ^^^ (derive b).1 ∧ (derive (a ^^^ b)).2 = (derive a).2 ^^^ (derive b).2

/-- 41_key_schedule section 3 (c): the two subkeys are equal for exactly eight master keys. -/
def Obligations.EqualSubkeyMasters : Prop :=
  ∀ master : MasterKey, (derive master).1 = (derive master).2 ↔
    master ∈ [0b0000000000#10, 0b0001100000#10, 0b0110001000#10, 0b0111101000#10,
      0b1000010111#10, 0b1001110111#10, 0b1110011111#10, 0b1111111111#10]

/-! ### The cipher engine -/

/-- R80: CONFIGURE of any two 8-bit subkeys loads both and sets `cfg` in one step, in either state of CE; on an error nothing is
written, lengths of both operands being checked first; at L2 it always succeeds; and no other operation changes `cfg`, `K1` or `K2`.
The two error clauses are on operands without an L2 encoding; that they show the L1 error by the word of R40 on the port is the
model's reading (DEDUCED, log 10). -/
def Obligations.ConfigureRule : Prop :=
  ∀ s : State,
    (∀ a b : SubKey, exec (.configure (symbols a) (symbols b)) s = .next (afterCommand s (.configured a b) 0x00000#18)) ∧
    (∀ x y : Operand, x.length ≠ 8 ∨ y.length ≠ 8 →
      exec (.configure x y) s = .next (afterCommand s s.ce 0x10000#18)) ∧
    (∀ x y : Operand, x.length = 8 → y.length = 8 → x.all Symbol.isBit = false ∨ y.all Symbol.isBit = false →
      exec (.configure x y) s = .next (afterCommand s s.ce 0x20000#18)) ∧
    (∀ w : CmdWord, w.extractLsb' 16 2 = 0b01#2 →
      step (present (commandIn w) s) =
        .next (afterCommand s (.configured (w.extractLsb' 8 8) (w.extractLsb' 0 8)) 0x00000#18)) ∧
    (∀ (i : Instr) (t : State), i.mnemonic ≠ .configure → exec i s = .next t → t.ce = s.ce)

/-- R86: ENCRYPT of every block under loaded keys, round 1 under `K1`, round 2 under `K2`, writing no state; the three error kinds
in their order; and at L2 the operand field and the reserved bits. The box contents are the parameter `params.boxes` (log 4), whatever they are.
The clauses on wrong-length and non-bit operands, which have no L2 encoding, show the L1 error by the word of R40 on the port: the
model's reading (DEDUCED, log 10). -/
def Obligations.EncryptRule : Prop :=
  ∀ s : State,
    (∀ (k1 k2 : SubKey) (m : Block), s.ce = .configured k1 k2 →
      exec (.encrypt (symbols m)) s =
        .next (afterCommand s s.ce (0b00#2 ++ (0x00#8 ++ crypt params.boxes k1 k2 m : BitVec 16)))) ∧
    (∀ x : Operand, x.length ≠ 8 → exec (.encrypt x) s = .next (afterCommand s s.ce 0x10000#18)) ∧
    (∀ x : Operand, x.length = 8 → x.all Symbol.isBit = false →
      exec (.encrypt x) s = .next (afterCommand s s.ce 0x20000#18)) ∧
    (∀ m : Block, s.ce = .unconfigured →
      exec (.encrypt (symbols m)) s = .next (afterCommand s s.ce 0x30000#18)) ∧
    (∀ w : CmdWord, w.extractLsb' 16 2 = 0b10#2 → w.extractLsb' 8 8 = 0#8 →
      step (present (commandIn w) s) = exec (.encrypt (symbols (w.extractLsb' 0 8))) s) ∧
    (∀ w : CmdWord, w.extractLsb' 16 2 = 0b10#2 → w.extractLsb' 8 8 ≠ 0#8 →
      step (present (commandIn w) s) = .next (afterCommand s s.ce 0x10000#18))

/-- R87: DECRYPT, as R86 with the two round keys exchanged; the box contents are the parameter `params.boxes` (log 4), and the
clauses on wrong-length and non-bit operands show the L1 error by the word of R40 on the port (DEDUCED, log 10). -/
def Obligations.DecryptRule : Prop :=
  ∀ s : State,
    (∀ (k1 k2 : SubKey) (c : Block), s.ce = .configured k1 k2 →
      exec (.decrypt (symbols c)) s =
        .next (afterCommand s s.ce (0b00#2 ++ (0x00#8 ++ crypt params.boxes k2 k1 c : BitVec 16)))) ∧
    (∀ x : Operand, x.length ≠ 8 → exec (.decrypt x) s = .next (afterCommand s s.ce 0x10000#18)) ∧
    (∀ x : Operand, x.length = 8 → x.all Symbol.isBit = false →
      exec (.decrypt x) s = .next (afterCommand s s.ce 0x20000#18)) ∧
    (∀ c : Block, s.ce = .unconfigured →
      exec (.decrypt (symbols c)) s = .next (afterCommand s s.ce 0x30000#18)) ∧
    (∀ w : CmdWord, w.extractLsb' 16 2 = 0b11#2 → w.extractLsb' 8 8 = 0#8 →
      step (present (commandIn w) s) = exec (.decrypt (symbols (w.extractLsb' 0 8))) s) ∧
    (∀ w : CmdWord, w.extractLsb' 16 2 = 0b11#2 → w.extractLsb' 8 8 ≠ 0#8 →
      step (present (commandIn w) s) = .next (afterCommand s s.ce 0x10000#18))

/-- R82 worked out bit by bit: which key bit meets which half bit, and where each lands in the two S-box indices; for every pair of
boxes. -/
def Obligations.RoundFunctionBits : Prop :=
  ∀ (B : Boxes) (key : SubKey) (half : Half) (row0 col0 row1 col1 : Fin 4),
    row0.val = 2 * (pos half 3 ^^ pos key 0).toNat + (pos half 2 ^^ pos key 3).toNat →
    col0.val = 2 * (pos half 0 ^^ pos key 1).toNat + (pos half 1 ^^ pos key 2).toNat →
    row1.val = 2 * (pos half 1 ^^ pos key 4).toNat + (pos half 0 ^^ pos key 7).toNat →
    col1.val = 2 * (pos half 2 ^^ pos key 5).toNat + (pos half 3 ^^ pos key 6).toNat →
    (F B key half).toNat = 4 * (B.s0 row0 col0).val + (B.s1 row1 col1).val

/-- R83: a round XORs `permute(P4, F(key, right4))` into the left half, and the original right half passes through unchanged. -/
def Obligations.RoundKeepsRightHalf : Prop :=
  ∀ (B : Boxes) (key : SubKey) (left4 right4 : Half),
    slice (Round B key left4 right4) 0 4 = left4 ^^^ permute P4 (F B key right4) ∧
    slice (Round B key left4 right4) 4 4 = right4

/-- 42_cipher section 7: a round applied twice under the same key is the identity, for every pair of boxes. -/
def Obligations.RoundIsInvolution : Prop :=
  ∀ (B : Boxes) (key : SubKey) (left4 right4 : Half),
    Round B key (slice (Round B key left4 right4) 0 4) (slice (Round B key left4 right4) 4 4) = left4 ++ right4

/-- 42_cipher section 7: the datapath in terms of halves: with `(lh, rh)` the halves of `IP(m)`, the last permutation is applied to
`(rh XOR f2) ++ (lh XOR f1)`. -/
def Obligations.CryptInHalves : Prop :=
  ∀ (B : Boxes) (ka kb : SubKey) (m : Block) (lh rh : Half),
    permute IP m = lh ++ rh →
    let f1 := permute P4 (F B ka rh)
    let f2 := permute P4 (F B kb (lh ^^^ f1))
    crypt B ka kb m = permute IPinv ((rh ^^^ f2) ++ (lh ^^^ f1))

/-- 42_cipher section 7: the round trip, both ways, for every pair of subkeys and every pair of boxes. -/
def Obligations.RoundTripAnyBoxes : Prop :=
  ∀ (B : Boxes) (k1 k2 : SubKey) (x : Block),
    decrypt B k1 k2 (encrypt B k1 k2 x) = x ∧ encrypt B k1 k2 (decrypt B k1 k2 x) = x

/-- R90 on the machine: from every state, the listing `SETKEY sk`, `ROUNDTRIP m` (R47) runs to its end, and its last response is OK
with the block `m`. -/
def Obligations.RoundTripOnTheMachine : Prop :=
  ∀ (s : State) (copy : HostCopy) (sk : MasterKey) (m : Block),
    ∃ t after, runListing [.setkey (symbols sk), .roundtrip (symbols m)] s copy = some (t, after) ∧
      lastResponse t = 0b00#2 ++ (0x00#8 ++ m : BitVec 16)

/-- 42_cipher section 7 (b): ENCRYPT and DECRYPT are bijections of the 256 blocks, for every pair of subkeys and of boxes. -/
def Obligations.CipherIsBijective : Prop :=
  ∀ (B : Boxes) (k1 k2 : SubKey), Function.Bijective (encrypt B k1 k2) ∧ Function.Bijective (decrypt B k1 k2)

/-- 42_cipher section 7 (c): flipping one plaintext bit changes the ciphertext, for every pair of subkeys and of boxes. -/
def Obligations.FlippedBitShows : Prop :=
  ∀ (B : Boxes) (k1 k2 : SubKey) (m d : Block) (i : Nat), i < 8 →
    (∀ j < 8, pos d j = decide (j = i)) → encrypt B k1 k2 (m ^^^ d) ≠ encrypt B k1 k2 m

/-- 42_cipher section 7 (d), "encrypt is not the identity function", here for every pair of boxes and not only the default ones (the
spec's remark that it need not hold with other boxes is too cautious; see NOTES.md). -/
def Obligations.EncryptIsNotTheIdentity : Prop :=
  ∀ (B : Boxes) (k1 k2 : SubKey), ∃ m, encrypt B k1 k2 m ≠ m

/-- 42_cipher section 7 (e): after a master key with equal subkeys, ENCRYPT applied twice gives the plaintext back. -/
def Obligations.EqualSubkeysSelfInverse : Prop :=
  ∀ (B : Boxes) (master : MasterKey) (m : Block), (derive master).1 = (derive master).2 →
    encrypt B (derive master).1 (derive master).2 (encrypt B (derive master).1 (derive master).2 m) = m

/-- 95_test_vectors section 7, the structural vectors: with S0 constantly 0 and S1 constantly 3 the ciphertext is the final
permutation of the swapped halves of IP, each XORed with `0110`, for any keys. -/
def Obligations.ConstantBoxesShowTheWiring : Prop :=
  ∀ (B : Boxes) (ka kb : SubKey) (b : Block), (∀ r c, B.s0 r c = 0) → (∀ r c, B.s1 r c = 3) →
    crypt B ka kb b =
      permute IPinv ((slice (permute IP b) 4 4 ^^^ 0b0110#4) ++ (slice (permute IP b) 0 4 ^^^ 0b0110#4))

/-! ### Errors -/

/-- R103 with the L1 rows of R105: exactly one kind is reported, InvalidLength before InvalidSymbol before NotConfigured, and a
command to which none applies does not fail. -/
def Obligations.ErrorPriority : Prop :=
  ∀ (i : Instr) (ce : CE),
    errorOf (l1Step params i ce).2 =
      if (operandsOf i).any (fun o => o.2.length != o.1) then some .invalidLength
      else if (operandsOf i).any (fun o => !o.2.all Symbol.isBit) then some .invalidSymbol
      else if needsKeys i && ce == .unconfigured then some .notConfigured
      else none

/-- 60_exceptions section 2: under every order of the error kinds and every box contents, a command fails exactly when it is ill
formed or lacks the keys it needs, and then it changes nothing; the kind reported is one that applies. -/
def Obligations.FailureUnderAnyPriority : Prop :=
  ∀ (p : Params) (i : Instr) (ce : CE),
    ((errorOf (l1Step p i ce).2).isSome = true ↔
      (i.wellFormed = false ∨ (needsKeys i = true ∧ ce = .unconfigured))) ∧
    (∀ k, errorOf (l1Step p i ce).2 = some k →
      (l1Step p i ce).1 = ce ∧ causes (operandsOf i) (needsKeys i && ce == .unconfigured) k = true)

/-- R106: after a failing command the next edge, whatever it is, does exactly what it would have done had the failing command not
been sent: same new state of CE, same outputs. First for a failing command word at the port, then for any failing command of L1. -/
def Obligations.FailingCommandLeavesNoTrace : Prop :=
  (∀ (s t : State) (w : CmdWord) (o : PortOut),
    step (present (commandIn w) s) = .next t → t.outputs = s.outputs ++ [o] → isError o = true →
    ∀ p : PortIn, ∃ ce out,
      step (present p s) = .next ⟨ce, s.inputs, s.outputs ++ [out]⟩ ∧
      step (present p t) = .next ⟨ce, s.inputs, s.outputs ++ [o, out]⟩) ∧
  (∀ (s t : State) (i : Instr) (o : PortOut),
    exec i s = .next t → t.outputs = s.outputs ++ [o] → isError o = true →
    ∀ p : PortIn, ∃ ce out,
      step (present p s) = .next ⟨ce, s.inputs, s.outputs ++ [out]⟩ ∧
      step (present p t) = .next ⟨ce, s.inputs, s.outputs ++ [o, out]⟩)

/-- R107's premise met: once keys are loaded, a host that does not reset and sends only words that decode to commands gets no error
response, however long the run. -/
def Obligations.ConfiguredHostRunsSafely : Prop :=
  ∀ (k : Nat) (s : State), s.ce ≠ .unconfigured →
    (∀ p ∈ s.inputs, p.rst = false ∧ (p.cmdValid = true → ∃ i, decode p.cmd = .command i)) →
    safeRun k s = true

/-! ### The port and the two-state machine -/

/-- 10_state section 4: after reset `cfg` is 0 and the keys hold no value. -/
def Obligations.ResetState : Prop :=
  State.reset.ce.cfg = 0#1 ∧ State.reset.ce.k1 = none ∧ State.reset.ce.k2 = none

/-- R120: with `rst = 1` the core becomes Unconfigured from either state, the keys lose their values, and a command presented in the
same cycle is dropped without a response; two resets in a row leave the core as one does. -/
def Obligations.ResetEdge : Prop :=
  ∀ (s : State) (p q : PortIn), p.rst = true → q.rst = true →
    step (present p s) = .next ⟨.unconfigured, s.inputs, s.outputs ++ [⟨false, 0#18⟩]⟩ ∧
    run 2 (present p (present q s)) =
      .next ⟨.unconfigured, s.inputs, s.outputs ++ [⟨false, 0#18⟩, ⟨false, 0#18⟩]⟩

/-- 30_encoding section 2 (c): with neither reset nor command the state is unchanged and nothing is answered. -/
def Obligations.IdleEdge : Prop :=
  ∀ (s : State) (p : PortIn), p.rst = false → p.cmdValid = false →
    step (present p s) = .next ⟨s.ce, s.inputs, s.outputs ++ [⟨false, 0#18⟩]⟩

/-- A step runs the decoded instruction: when the ports present a command word that decodes to `i`, the step is `exec i` at the state
in which the host has moved to its next input. -/
def Obligations.StepRunsDecodedInstruction : Prop :=
  ∀ (s : State) (p : PortIn) (rest : List PortIn) (i : Instr),
    s.inputs = p :: rest → p.rst = false → p.cmdValid = true → decode p.cmd = .command i →
    step s = exec i ⟨s.ce, rest, s.outputs⟩

/-- R128, R34: every step completes, from every state and with every input, and so does every run; every command word is answered
in the step that presents it. -/
def Obligations.EveryRunCompletes : Prop :=
  (∀ s : State, ∃ t, step s = .next t) ∧
  (∀ (k : Nat) (s : State), ∃ t, run k s = .next t) ∧
  (∀ (s : State) (w : CmdWord), ∃ t r,
    step (present (commandIn w) s) = .next t ∧ t.outputs = s.outputs ++ [⟨true, r⟩])

/-- 70_reset section 2: a run of the host's list shows one response for each command in it, no more and no fewer; resets and idle
edges show none. -/
def Obligations.OneResponsePerCommand : Prop :=
  ∀ s t : State, run s.inputs.length s = .next t →
    (responses t.outputs).length =
      (responses s.outputs).length + (s.inputs.filter fun p => !p.rst && p.cmdValid).length

/-- The frame of the four instructions: DERIVE, ENCRYPT and DECRYPT leave CE as it is, CONFIGURE leaves it or loads a pair of keys;
each shows exactly one response and touches nothing the host has still to present. -/
def Obligations.InstructionFrames : Prop :=
  ∀ (s t : State),
    (∀ x, exec (.derive x) s = .next t ∨ exec (.encrypt x) s = .next t ∨ exec (.decrypt x) s = .next t →
      t.ce = s.ce ∧ t.inputs = s.inputs ∧ ∃ w, t.outputs = s.outputs ++ [⟨true, w⟩]) ∧
    (∀ x y, exec (.configure x y) s = .next t →
      (t.ce = s.ce ∨ ∃ a b, x = symbols a ∧ y = symbols b ∧ t.ce = .configured a b) ∧
      t.inputs = s.inputs ∧ ∃ w, t.outputs = s.outputs ++ [⟨true, w⟩])

/-- R23, with R38, R40, R42 and the L2 rows of R105: one step, as the tables give its new state and its outputs. -/
def Obligations.StepFollowsTheTables : Prop :=
  ∀ s : State,
    step s = .next
      { ce := tableState s.ce (nextInput s), inputs := s.inputs.tail,
        outputs := s.outputs ++ [tableOutput params.boxes s.ce (nextInput s)] }

/-- R29 over whole runs: the machine given any list of inputs goes through the tables' states and shows the tables' outputs, one for
each edge in the order presented, and every response reflects all earlier commands and no later one. -/
def Obligations.RunFollowsTheTables : Prop :=
  ∀ s : State,
    run s.inputs.length s = .next
      { ce := (tableRun params.boxes s.ce s.inputs).1, inputs := [],
        outputs := s.outputs ++ (tableRun params.boxes s.ce s.inputs).2 }

/-- 10_state sections 1 and 3: an edge that is neither a reset nor a CONFIGURE leaves `cfg`, `K1` and `K2` unchanged. -/
def Obligations.OnlyConfigureAndResetWrite : Prop :=
  ∀ s t : State, step s = .next t → isWriter (nextInput s) = false →
    t.ce.cfg = s.ce.cfg ∧ t.ce.k1 = s.ce.k1 ∧ t.ce.k2 = s.ce.k2

/-- R121: reset is the only way from Configured back to Unconfigured. -/
def Obligations.OnlyResetUnconfigures : Prop :=
  ∀ s t : State, step s = .next t → s.ce.cfg = 1#1 → t.ce.cfg = 0#1 → (nextInput s).rst = true

/-- R121, R122: while the host sends no CONFIGURE, an Unconfigured core stays so, resets or not, and answers an ENCRYPT or DECRYPT
with `NotConfigured`. -/
def Obligations.UnconfiguredUntilConfigure : Prop :=
  ∀ (k : Nat) (s t : State) (m : Block), s.ce = .unconfigured → (∀ p ∈ s.inputs, isConfigure p = false) →
    run k s = .next t →
    t.ce = .unconfigured ∧
    exec (.encrypt (symbols m)) t = .next (afterCommand t .unconfigured 0x30000#18) ∧
    exec (.decrypt (symbols m)) t = .next (afterCommand t .unconfigured 0x30000#18)

/-- R126: `K1` and `K2` keep their values over any run that holds no CONFIGURE and no reset, failing commands included. -/
def Obligations.KeysStayLoaded : Prop :=
  ∀ (k : Nat) (s t : State) (k1 k2 : SubKey), s.ce = .configured k1 k2 → (∀ p ∈ s.inputs, isWriter p = false) →
    run k s = .next t → t.ce.k1 = some k1 ∧ t.ce.k2 = some k2

/-- R124: a CONFIGURE may be followed at once by an ENCRYPT, which uses the new keys, from either state of CE. -/
def Obligations.NewKeysAtOnce : Prop :=
  ∀ (s : State) (a b : SubKey) (m : Block),
    run 2 (present (commandIn (0b01#2 ++ (a ++ b : BitVec 16))) (present (commandIn (0b10#2 ++ (0x00#8 ++ m : BitVec 16))) s)) =
      .next ⟨.configured a b, s.inputs,
        s.outputs ++ [⟨true, 0x00000#18⟩, ⟨true, 0b00#2 ++ (0x00#8 ++ encrypt params.boxes a b m : BitVec 16)⟩]⟩

/-- R47: `SETKEY m` runs to its end from every state and leaves the core Configured with the two subkeys of `m`. -/
def Obligations.SetkeyLoadsDerivedKeys : Prop :=
  ∀ (s : State) (copy : HostCopy) (master : MasterKey),
    ∃ t after, runListing [.setkey (symbols master)] s copy = some (t, after) ∧
      t.ce = .configured (derive master).1 (derive master).2

/-- 10_state section 2: two runs that agree on `(cfg, K1, K2)` and on the inputs agree on every output and on the final state,
whatever outputs were shown before: the response is not latched and there is no hidden state. -/
def Obligations.NoHiddenState : Prop :=
  ∀ (k : Nat) (s s' t t' : State), s.ce = s'.ce → s.inputs = s'.inputs →
    run k s = .next t → run k s' = .next t' →
    t.ce = t'.ce ∧ t.inputs = t'.inputs ∧ ∃ new, t.outputs = s.outputs ++ new ∧ t'.outputs = s'.outputs ++ new

/-- An invariant of every step: each output is legal: zero without a response, never status 10 at the port, no data beside an error
status (R37, R40, R101). -/
def Obligations.OutputsStayLegal : Prop :=
  ∀ s t : State, outputsLegal s → step s = .next t → outputsLegal t

/-- That invariant at reset. -/
def Obligations.OutputsLegalAtReset : Prop :=
  outputsLegal State.reset

/-! ### The open parameters of R7 -/

/-- R7: decode and encode agree under every value of the parameters and at every width of the command word that holds the operands.
Where a word is wider than 18 bits its layout is the model's own (log 19). -/
def Obligations.DecodeOfEncodeAnyParameters : Prop :=
  ∀ (p : Params) (n : Nat) (i : Instr), 18 ≤ n → i.wellFormed = true →
    ∃ w : BitVec n, encodeWith p n i = some w ∧ decodeWith p w = .command i

/-- R7, R43: under every assignment of opcode values and at every width (log 19), each word selects exactly the operation whose code
it carries. -/
def Obligations.OneOperationAnyOpcodes : Prop :=
  ∀ (codes : OpCodes) (n : Nat) (w : BitVec n) (m : Mnemonic), topField w = codes.code m ↔ operationOf codes w = m

/-- R7, R40: under every assignment of status codes and at every width of the response word that holds the result (log 19), the word
carries the response's status and result field, and two responses with the same word are the same error or both none. -/
def Obligations.ResponseFieldsAnyCodes : Prop :=
  ∀ (codes : StatusCodes) (n : Nat) (r : Response), 18 ≤ n →
    statusField (r.wordWith codes n) = statusOf codes r ∧
    rdataField (r.wordWith codes n) = rdataOf r ∧
    ∀ r' : Response, r.wordWith codes n = r'.wordWith codes n → errorOf r = errorOf r'

/-- R7, R90: under every value of the parameters and at all widths (log 19), a CONFIGURE, an ENCRYPT of `m` and a DECRYPT of its result,
sent through the port from any state, are answered with OK, the ciphertext, and `m`. -/
def Obligations.RoundTripAnyParameters : Prop :=
  ∀ (p : Params) (n k : Nat) (ce : CE) (a b : SubKey) (m : Block) (wc we wd : BitVec n), 18 ≤ n →
    encodeWith p n (.configure (symbols a) (symbols b)) = some wc →
    encodeWith p n (.encrypt (symbols m)) = some we →
    encodeWith p n (.decrypt (symbols (encrypt p.boxes a b m))) = some wd →
    portRun p k ce [commandIn wc, commandIn we, commandIn wd] =
      (.configured a b,
        [⟨true, Response.okDone.wordWith p.statusCodes k⟩,
         ⟨true, (Response.okBlock (encrypt p.boxes a b m)).wordWith p.statusCodes k⟩,
         ⟨true, (Response.okBlock m).wordWith p.statusCodes k⟩])
end

