-- ==== Sys2Proof/Laws/Bits.lean ====
section
/-!
SUPPORT. What each operation on bit sequences does, position by position, and how an operand and a bit sequence determine each
other. Callers cite these and do not unfold `ofPositions` or `readBits`.
-/

namespace Sys2Proof.Machine

/-- Two sequences with the same bit at every position are equal. -/
theorem pos_ext {n : Nat} {x y : BitVec n} (h : ∀ i < n, pos x i = pos y i) : x = y :=
  BitVec.eq_of_getMsbD_eq fun i hi => h i hi

theorem pos_cons_zero {n : Nat} (b : Bool) (s : BitVec n) : pos (BitVec.cons b s) 0 = b := by
  simp only [pos, BitVec.getMsbD_eq_getLsbD, BitVec.getLsbD_cons]
  simp

theorem pos_cons_succ {n : Nat} (b : Bool) (s : BitVec n) (i : Nat) :
    pos (BitVec.cons b s) (i + 1) = pos s i := by
  simp only [pos, BitVec.getMsbD_eq_getLsbD, BitVec.getLsbD_cons, Nat.add_lt_add_iff_right, Nat.add_sub_cancel]
  by_cases hi : i < n
  · rw [show n - (i + 1) = n - 1 - i by omega, if_neg (by omega)]
  · simp [hi]

theorem pos_ofPositions {m : Nat} (f : Nat → Bool) {i : Nat} (hi : i < m) :
    pos (ofPositions m f) i = f i := by
  induction m generalizing f i with
  | zero => omega
  | succ m ih =>
    cases i with
    | zero => simp [ofPositions, pos_cons_zero]
    | succ i => rw [ofPositions, pos_cons_succ, ih _ (by omega)]

theorem pos_slice {n : Nat} (s : BitVec n) (a : Nat) {len j : Nat} (hj : j < len) :
    pos (slice s a len) j = pos s (a + j) :=
  pos_ofPositions _ hj

theorem pos_xor {n : Nat} (x y : BitVec n) (i : Nat) : pos (x ^^^ y) i = (pos x i ^^ pos y i) := by
  simp [pos]

theorem pos_append {n m : Nat} (x : BitVec n) (y : BitVec m) (i : Nat) :
    pos (x ++ y) i = if i < n then pos x i else pos y (i - n) := by
  simp only [pos, BitVec.getMsbD_append]
  split <;> split <;> first | rfl | omega

/-- The first part of a concatenation. -/
theorem slice_append_left {n m : Nat} (x : BitVec n) (y : BitVec m) : slice (x ++ y) 0 n = x :=
  pos_ext fun i hi => by simp [pos_slice _ _ hi, pos_append, hi]

/-- The second part of a concatenation. -/
theorem slice_append_right {n m : Nat} (x : BitVec n) (y : BitVec m) : slice (x ++ y) n m = y :=
  pos_ext fun i hi => by simp [pos_slice _ _ hi, pos_append]

theorem symbols_length {n : Nat} (s : BitVec n) : (symbols s).length = n := by
  simp [symbols]

theorem symbols_all_bits {n : Nat} (s : BitVec n) : (symbols s).all Symbol.isBit = true := by
  simp [symbols, Symbol.isBit]

/-- Position 0 of an operand comes first. -/
theorem symbols_cons {n : Nat} (b : Bool) (s : BitVec n) : symbols (BitVec.cons b s) = .bit b :: symbols s := by
  simp [symbols, List.range_succ_eq_map, pos_cons_zero, pos_cons_succ, Function.comp_def]

/-- Reading back the operand that holds a sequence gives the sequence. -/
theorem readBits_symbols {n : Nat} (s : BitVec n) : readBits n (symbols s) = some s := by
  induction n with
  | zero => simp [symbols, readBits, BitVec.eq_nil s]
  | succ n ih =>
    rw [← BitVec.cons_msb_setWidth s, symbols_cons, readBits, ih]
    rfl

/-- `readBits` answers a sequence for the operand that holds it, and for no other operand. -/
theorem readBits_eq_some {n : Nat} {x : Operand} {s : BitVec n} : readBits n x = some s ↔ x = symbols s := by
  refine ⟨fun h => ?_, fun h => h ▸ readBits_symbols s⟩
  induction n generalizing x with
  | zero =>
    cases x with
    | nil => simp [symbols]
    | cons => simp [readBits] at h
  | succ n ih =>
    match x, h with
    | .bit b :: rest, h =>
      simp only [readBits, Option.map_eq_some_iff] at h
      obtain ⟨t, ht, rfl⟩ := h
      rw [symbols_cons, ih ht]

/-- An operand can be read exactly when it passes the length and the symbol check. -/
theorem readBits_isSome (n : Nat) (x : Operand) : (readBits n x).isSome = Operand.fits n x := by
  induction n generalizing x with
  | zero => cases x <;> simp [readBits, Operand.fits]
  | succ n ih =>
    match x with
    | [] => simp [readBits, Operand.fits]
    | .bit b :: rest => simpa [readBits, Operand.fits, Symbol.isBit] using ih rest
    | .other t :: rest => simp [readBits, Operand.fits, Symbol.isBit]

theorem fits_symbols {n : Nat} (s : BitVec n) : Operand.fits n (symbols s) = true := by
  simp [Operand.fits, symbols_length, symbols_all_bits]

end Sys2Proof.Machine
end

