-- ==== Sys2Proof/Laws/State.lean ====
section
/-!
SUPPORT. One lemma for each field of `State` under each update, so that no proof unfolds a record update; and the register
views of each constructor of `CE`.
-/

namespace Sys2Proof.Machine

@[simp] theorem settle_ce (s : State) (ce : CE) (o : PortOut) : (settle s ce o).ce = ce := rfl
@[simp] theorem settle_inputs (s : State) (ce : CE) (o : PortOut) : (settle s ce o).inputs = s.inputs := rfl
@[simp] theorem settle_outputs (s : State) (ce : CE) (o : PortOut) :
    (settle s ce o).outputs = s.outputs ++ [o] := rfl

@[simp] theorem answer_ce (s : State) (r : CE × Response) : (answer s r).ce = r.1 := rfl
@[simp] theorem answer_inputs (s : State) (r : CE × Response) : (answer s r).inputs = s.inputs := rfl
@[simp] theorem answer_outputs (s : State) (r : CE × Response) :
    (answer s r).outputs = s.outputs ++ [responseOut r.2] := rfl

@[simp] theorem consume_ce (s : State) : (consume s).ce = s.ce := rfl
@[simp] theorem consume_inputs (s : State) : (consume s).inputs = s.inputs.tail := rfl
@[simp] theorem consume_outputs (s : State) : (consume s).outputs = s.outputs := rfl

@[simp] theorem present_ce (p : PortIn) (s : State) : (present p s).ce = s.ce := rfl
@[simp] theorem present_inputs (p : PortIn) (s : State) : (present p s).inputs = p :: s.inputs := rfl
@[simp] theorem present_outputs (p : PortIn) (s : State) : (present p s).outputs = s.outputs := rfl

@[simp] theorem consume_present (p : PortIn) (s : State) : consume (present p s) = s := rfl
@[simp] theorem nextInput_present (p : PortIn) (s : State) : nextInput (present p s) = p := rfl

@[simp] theorem unconfigured_cfg : CE.unconfigured.cfg = 0#1 := rfl
@[simp] theorem configured_cfg (k1 k2 : SubKey) : (CE.configured k1 k2).cfg = 1#1 := rfl
@[simp] theorem unconfigured_k1 : CE.unconfigured.k1 = none := rfl
@[simp] theorem configured_k1 (k1 k2 : SubKey) : (CE.configured k1 k2).k1 = some k1 := rfl
@[simp] theorem unconfigured_k2 : CE.unconfigured.k2 = none := rfl
@[simp] theorem configured_k2 (k1 k2 : SubKey) : (CE.configured k1 k2).k2 = some k2 := rfl

end Sys2Proof.Machine
end

