-- ==== Sys2Proof/Laws/Ops.lean ====
section
/-!
SUPPORT. For each shared operation, one lemma that says everything it can do: error entry, the reported kind, the L1 calls and
the port.
-/

namespace Sys2Proof.Machine

/-- The reported kind applies, whatever the order, when some kind applies. -/
theorem report_applies (order : ErrOrder) {applies : ErrorKind → Bool} {k : ErrorKind} (hk : applies k = true) :
    applies (report order applies) = true := by
  obtain ⟨a, b, c, hd⟩ := order
  unfold report
  cases a <;> cases b <;> cases c <;> simp_all <;> cases k <;> grind

/-- Error entry writes no state, and its response is an error of the reported kind. -/
theorem raiseError_spec (order : ErrOrder) (applies : ErrorKind → Bool) (ce : CE) :
    raiseError order applies ce = (ce, .err (report order applies)) := rfl

/-- A failing operand check shows as one of the two operand causes. -/
theorem not_fits_iff (n : Nat) (x : Operand) :
    Operand.fits n x = false ↔ wrongLength [(n, x)] = true ∨ badSymbol [(n, x)] = true := by
  simp only [Operand.fits, wrongLength, badSymbol, List.any_cons, List.any_nil, Bool.or_false, bne_iff_ne,
    Bool.and_eq_false_iff, beq_eq_false_iff_ne, Bool.not_eq_true']

/-- DERIVE at L1: it succeeds on the operand that holds a master key, and otherwise enters the error. -/
theorem deriveCall_spec (p : Params) (x : Operand) (ce : CE) :
    (∃ m, x = symbols m ∧ deriveCall p x ce = (ce, .okKeys (derive m).1 (derive m).2)) ∨
    (Operand.fits 10 x = false ∧ deriveCall p x ce = (ce, .err (report p.errPriority (causes [(10, x)] false)))) := by
  cases h : readBits 10 x with
  | some m => exact .inl ⟨m, readBits_eq_some.mp h, by simp [deriveCall, h]⟩
  | none =>
    refine .inr ⟨?_, by simp [deriveCall, h, raiseError]⟩
    rw [← readBits_isSome, h, Option.isSome_none]

/-- CONFIGURE at L1: it loads both keys, or it enters the error and loads neither. -/
theorem configureCall_spec (p : Params) (a b : Operand) (ce : CE) :
    (∃ k1 k2, a = symbols k1 ∧ b = symbols k2 ∧ configureCall p a b ce = (.configured k1 k2, .okDone)) ∨
    ((Operand.fits 8 a && Operand.fits 8 b) = false ∧
      configureCall p a b ce = (ce, .err (report p.errPriority (causes [(8, a), (8, b)] false)))) := by
  rw [← readBits_isSome, ← readBits_isSome]
  cases ha : readBits 8 a with
  | none => exact .inr ⟨rfl, by simp [configureCall, ha, raiseError]⟩
  | some k1 =>
    cases hb : readBits 8 b with
    | none => exact .inr ⟨rfl, by simp [configureCall, ha, hb, raiseError]⟩
    | some k2 =>
      exact .inl ⟨k1, k2, readBits_eq_some.mp ha, readBits_eq_some.mp hb, by simp [configureCall, ha, hb, loadKeys]⟩

/-- ENCRYPT and DECRYPT at L1: a block under the loaded keys, or the error; the state stays as it is. -/
theorem blockCall_spec (p : Params) (f : SubKey → SubKey → Block → Block) (x : Operand) (ce : CE) :
    (∃ k1 k2 b, ce = .configured k1 k2 ∧ x = symbols b ∧ blockCall p f x ce = (ce, .okBlock (f k1 k2 b))) ∨
    ((ce = .unconfigured ∨ Operand.fits 8 x = false) ∧
      blockCall p f x ce = (ce, .err (report p.errPriority (causes [(8, x)] (ce.cfg == 0#1))))) := by
  cases ce with
  | unconfigured => exact .inr ⟨.inl rfl, by simp [blockCall, raiseError]⟩
  | configured k1 k2 =>
    cases h : readBits 8 x with
    | some b => exact .inl ⟨k1, k2, b, rfl, readBits_eq_some.mp h, by simp [blockCall, h]⟩
    | none =>
      refine .inr ⟨.inr ?_, by simp [blockCall, h, raiseError]⟩
      rw [← readBits_isSome, h, Option.isSome_none]

/-- Every instruction is one L1 step at the machine's parameters, answered at the port. -/
theorem exec_eq (i : Instr) (s : State) : exec i s = .next (answer s (l1Step params i s.ce)) := by
  cases i <;> rfl

/-- No instruction but CONFIGURE changes the cipher engine. -/
theorem l1Step_ce (p : Params) (i : Instr) (ce : CE) (h : i.mnemonic ≠ .configure) : (l1Step p i ce).1 = ce := by
  cases i with
  | derive x => rcases deriveCall_spec p x ce with ⟨_, _, h⟩ | ⟨_, h⟩ <;> simp [l1Step, h]
  | configure a b => simp [Instr.mnemonic] at h
  | encrypt x => rcases blockCall_spec p (encrypt p.boxes) x ce with ⟨_, _, _, _, _, h⟩ | ⟨_, h⟩ <;>
      simp [l1Step, encryptCall, h]
  | decrypt x => rcases blockCall_spec p (decrypt p.boxes) x ce with ⟨_, _, _, _, _, h⟩ | ⟨_, h⟩ <;>
      simp [l1Step, decryptCall, h]

end Sys2Proof.Machine
end

