-- ==== Sys2Proof/Laws/PerInstr.lean ====
section
/-!
SUPPORT. The family `Encodable`, one lemma for each instruction: it has a command word exactly when it is well formed (30_encoding
R45: a line with any other operand has no L2 encoding).
-/

namespace Sys2Proof.Laws.Encodable

/-- The instruction has an encoding exactly when it is well formed. -/
def Statement (i : Instr) : Prop :=
  (encode i).isSome = i.wellFormed

theorem derive (master : Operand) : Statement (.derive master) := by
  simp [Statement, encode, encodeWith, Instr.wellFormed, Machine.readBits_isSome]

theorem configure (a b : Operand) : Statement (.configure a b) := by
  simp only [Statement, encode, encodeWith, Instr.wellFormed, ← Machine.readBits_isSome]
  cases Machine.readBits 8 a <;> cases Machine.readBits 8 b <;> rfl

theorem encrypt (m : Operand) : Statement (.encrypt m) := by
  simp [Statement, encode, encodeWith, Instr.wellFormed, Machine.readBits_isSome]

theorem decrypt (c : Operand) : Statement (.decrypt c) := by
  simp [Statement, encode, encodeWith, Instr.wellFormed, Machine.readBits_isSome]

end Sys2Proof.Laws.Encodable
end

