-- ==== Sys2Proof/Laws/Step.lean ====
section
/-!
SUPPORT. What one step and one run can do, said once: a step is the port at one edge, and a run is a run of the port.
-/

namespace Sys2Proof.Machine

/-- One step: the port at the next input, its new state and its outputs; the input is used up. -/
theorem step_eq (s : State) :
    step s = .next (settle (consume s) (portStep params 18 (nextInput s) s.ce).1
      (portStep params 18 (nextInput s) s.ce).2) := by
  unfold step portStep
  cases portEvent (nextInput s) with
  | reset => rfl
  | idle => rfl
  | command w =>
    simp only [decode, l2Step]
    cases decodeWith params w with
    | command i => exact exec_eq i (consume s)
    | bad _ => rfl

/-- A run of one step and then `k` more. -/
theorem run_succ (k : Nat) (s : State) :
    run (k + 1) s = run k (settle (consume s) (portStep params 18 (nextInput s) s.ce).1
      (portStep params 18 (nextInput s) s.ce).2) := by
  rw [run, step_eq]

/-- The host's own unfolding of a run, for any machine. -/
theorem host_run_succ (M : Host.Core) (k : Nat) (s : M.State) :
    M.run (k + 1) s = match M.step s with
      | .next t => M.run k t
      | .fault f => .fault f
      | .refused r => .refused r := by
  cases h : M.step s <;> simp only [Host.Core.run, h]

/-- The host's run of the machine is `run`. -/
theorem core_run_eq (k : Nat) (s : State) : core.run k s = run k s := by
  induction k generalizing s with
  | zero => rfl
  | succ k ih =>
    refine (host_run_succ core k s).trans ?_
    rw [run, show core.step s = step s from rfl]
    cases step s with
    | next t => exact ih t
    | fault f => rfl
    | refused r => rfl

end Sys2Proof.Machine
end

