-- ==== Sys2Proof/Laws/Words.lean ====
section
/-!
SUPPORT. Words and their fields (30_encoding R38, R40): a word put together, at any width and at this machine's 18 bits; each field of
it is what was put in; and the decoder and the response words of this machine in those terms.
-/

namespace Sys2Proof

open Machine

/-- Bit `i` of a word put together: the two uppermost bits are `top`, the others are `low`, right-aligned. -/
theorem getLsbD_packWord {n k : Nat} (hk : k + 2 ≤ n) (top : BitVec 2) (low : BitVec k) (i : Nat) :
    (packWord n top low).getLsbD i = if i < n - 2 then low.getLsbD i else top.getLsbD (i - (n - 2)) := by
  unfold packWord
  simp only [BitVec.getLsbD_or, BitVec.getLsbD_shiftLeft, BitVec.getLsbD_setWidth]
  by_cases hi : i < n - 2
  · have : i < n := by omega
    simp [hi, this]
  · have h1 : low.getLsbD i = false := BitVec.getLsbD_of_ge _ _ (by omega)
    by_cases hn : i < n
    · have : i - (n - 2) < n := by omega
      simp [hi, hn, h1, this]
    · have h2 : top.getLsbD (i - (n - 2)) = false := BitVec.getLsbD_of_ge _ _ (by omega)
      simp [hi, h1, h2]

/-- The uppermost field of a word put together. -/
theorem topField_packWord {n k : Nat} (hk : k + 2 ≤ n) (top : BitVec 2) (low : BitVec k) :
    topField (packWord n top low) = top := by
  apply BitVec.eq_of_getLsbD_eq
  intro i hi
  rw [topField, BitVec.getLsbD_extractLsb', getLsbD_packWord hk]
  simp [hi]

/-- The low bits of a word put together, taken back at their own width. -/
theorem low_packWord {n k : Nat} (hk : k + 2 ≤ n) (top : BitVec 2) (low : BitVec k) :
    (packWord n top low).extractLsb' 0 k = low := by
  apply BitVec.eq_of_getLsbD_eq
  intro i hi
  rw [BitVec.getLsbD_extractLsb', getLsbD_packWord hk]
  have : i < n - 2 := by omega
  simp [hi, this]

/-- The bits between the two parts of a word put together are zero. -/
theorem reservedClear_packWord {n k : Nat} (hk : k + 2 ≤ n) (top : BitVec 2) (low : BitVec k) :
    reservedClear k (packWord n top low) = true := by
  rw [reservedClear, beq_iff_eq]
  apply BitVec.eq_of_getLsbD_eq
  intro i hi
  rw [BitVec.getLsbD_extractLsb', getLsbD_packWord hk]
  have : k + i < n - 2 := by omega
  simp [this]

/-- A part of the low bits of a word put together. -/
theorem part_packWord {n k : Nat} (hk : k + 2 ≤ n) (top : BitVec 2) (low : BitVec k) (a len : Nat) (h : a + len ≤ k) :
    (packWord n top low).extractLsb' a len = low.extractLsb' a len := by
  apply BitVec.eq_of_getLsbD_eq
  intro i hi
  rw [BitVec.getLsbD_extractLsb', getLsbD_packWord hk, BitVec.getLsbD_extractLsb']
  have : a + i < n - 2 := by omega
  simp [this]

/-- At 18 bits a word put together is a concatenation. -/
theorem packWord_18 (top : BitVec 2) (low : BitVec 16) : packWord 18 top low = top ++ low := by
  apply BitVec.eq_of_getLsbD_eq
  intro i hi
  exact (getLsbD_packWord (by decide) top low i).trans BitVec.getLsbD_append.symm

/-- At 18 bits, an operand of 8 bits: eight zeros above it. -/
theorem packWord_18_8 (top : BitVec 2) (low : BitVec 8) : packWord 18 top low = top ++ (0#8 ++ low : BitVec 16) := by
  rw [← packWord_18]
  unfold packWord
  congr 1
  apply BitVec.eq_of_getLsbD_eq
  intro i hi
  simp only [BitVec.getLsbD_setWidth, show (0#8 ++ low : BitVec 16).getLsbD i = _ from BitVec.getLsbD_append]
  by_cases h : i < 8
  · simp [h]
  · simp [h, BitVec.getLsbD_of_ge low i (by omega)]

/-- At 18 bits, an operand of 10 bits: six zeros above it. -/
theorem packWord_18_10 (top : BitVec 2) (low : BitVec 10) : packWord 18 top low = top ++ (0#6 ++ low : BitVec 16) := by
  rw [← packWord_18]
  unfold packWord
  congr 1
  apply BitVec.eq_of_getLsbD_eq
  intro i hi
  simp only [BitVec.getLsbD_setWidth, show (0#6 ++ low : BitVec 16).getLsbD i = _ from BitVec.getLsbD_append]
  by_cases h : i < 10
  · simp [h]
  · simp [h, BitVec.getLsbD_of_ge low i (by omega)]

/-- The fields of an 18-bit word, and the word from its fields. -/
theorem topField_append (op : BitVec 2) (d : BitVec 16) : topField (op ++ d : BitVec 18) = op :=
  BitVec.extractLsb'_append_eq_left

theorem dataField_append (op : BitVec 2) (d : BitVec 16) : dataField (op ++ d : BitVec 18) = d :=
  BitVec.extractLsb'_append_eq_right

theorem word_of_fields (w : CmdWord) : (topField w ++ dataField w : BitVec 18) = w :=
  BitVec.extractLsb'_append_extractLsb' (w := 2) (len := 16)

/-- A field inside the data field. -/
theorem part_append (op : BitVec 2) (d : BitVec 16) (a len : Nat) (h : a + len ≤ 16) :
    (op ++ d : BitVec 18).extractLsb' a len = d.extractLsb' a len := by
  rw [← packWord_18]
  exact part_packWord (by decide) op d a len h

/-- CONFIGURE has no reserved bits at 18 bits. -/
theorem reservedClear_16 (w : CmdWord) : reservedClear 16 w = true := by
  rw [reservedClear, beq_iff_eq]
  exact BitVec.of_length_zero

/-- R41, this machine's decoder, row by row. -/
theorem decode_eq (w : CmdWord) :
    decode w =
      if w.extractLsb' 16 2 = 0b00#2 then
        reservedVerdict .fail (w.extractLsb' 10 6 == 0#6) (.derive (symbols (w.extractLsb' 0 10)))
          (.derive (symbols (w.extractLsb' 0 16)))
      else if w.extractLsb' 16 2 = 0b01#2 then
        .command (.configure (symbols (w.extractLsb' 8 8)) (symbols (w.extractLsb' 0 8)))
      else if w.extractLsb' 16 2 = 0b10#2 then
        reservedVerdict .fail (w.extractLsb' 8 8 == 0#8) (.encrypt (symbols (w.extractLsb' 0 8)))
          (.encrypt (symbols (w.extractLsb' 0 16)))
      else
        reservedVerdict .fail (w.extractLsb' 8 8 == 0#8) (.decrypt (symbols (w.extractLsb' 0 8)))
          (.decrypt (symbols (w.extractLsb' 0 16))) := by
  unfold decode decodeWith operationOf
  rw [reservedClear_16]
  by_cases h0 : w.extractLsb' 16 2 = 0b00#2
  · rw [if_pos h0, if_pos (show topField w = params.opcodes.derive from h0)]
    rfl
  rw [if_neg h0, if_neg (show ¬ topField w = params.opcodes.derive from h0)]
  by_cases h1 : w.extractLsb' 16 2 = 0b01#2
  · rw [if_pos h1, if_pos (show topField w = params.opcodes.configure from h1)]
    rfl
  rw [if_neg h1, if_neg (show ¬ topField w = params.opcodes.configure from h1)]
  by_cases h2 : w.extractLsb' 16 2 = 0b10#2
  · rw [if_pos h2, if_pos (show topField w = params.opcodes.encrypt from h2)]
    rfl
  rw [if_neg h2, if_neg (show ¬ topField w = params.opcodes.encrypt from h2)]
  rfl

/-- R40, the response words of this machine. -/
@[simp] theorem word_okKeys (k1 k2 : SubKey) : (Response.okKeys k1 k2).word = 0b00#2 ++ (k1 ++ k2 : BitVec 16) :=
  packWord_18 _ _

@[simp] theorem word_okDone : Response.okDone.word = 0x00000#18 := by decide

@[simp] theorem word_okBlock (b : Block) : (Response.okBlock b).word = 0b00#2 ++ (0x00#8 ++ b : BitVec 16) :=
  packWord_18 _ _

@[simp] theorem word_invalidLength : (Response.err .invalidLength).word = 0x10000#18 := by decide

@[simp] theorem word_invalidSymbol : (Response.err .invalidSymbol).word = 0x20000#18 := by decide

@[simp] theorem word_notConfigured : (Response.err .notConfigured).word = 0x30000#18 := by decide

/-- A command's end, in the terms claims use: the new state of CE and one more output, the response's word. -/
theorem answer_eq (s : State) (ce : CE) (r : Response) : answer s (ce, r) = afterCommand s ce r.word := rfl

/-- The port's answer at this machine's parameters. -/
theorem responseWith_params (r : Response) :
    responseWith params.statusCodes 18 r = { rspValid := true, rsp := r.word } := rfl

/-- The same where the port has already shown the response. -/
theorem settle_responseOut (s : State) (ce : CE) (r : Response) :
    settle s ce (responseOut r) = afterCommand s ce r.word := rfl

end Sys2Proof
end

