-- ==== Sys2Proof/Tests/Slice0.lean ====
section
/-!
SUPPORT. Tests of one step or one function each, expected values from 95_test_vectors.md (its sections named beside them), and one
witness for each statement that has hypotheses. A vector that depends on the default S-boxes says so (log 4).
-/

open Sys2Proof Sys2Proof.Machine

/-! ### Helpers -/

/-- What a test looks at: the new state of CE and the last outputs. -/
def testView : Host.Outcome State Fault Refusal → Option (CE × PortOut)
  | .next t => some (t.ce, t.outputs.getLastD noResponse)
  | _ => none

/-- A core with the given state, nothing presented and nothing shown. -/
def testState (ce : CE) : State := ⟨ce, [], []⟩

/-- The keys of vector V1. -/
def testKeys : CE := .configured 0xA4#8 0x43#8

/-- An answer with the word `w`. -/
def testAnswer (ce : CE) (w : RspWord) : Option (CE × PortOut) := some (ce, ⟨true, w⟩)

/-! ### WellFormed refuses an ill-formed term for each check -/

theorem test_wellFormed_refuses :
    (Instr.derive (symbols 0b101000001#9)).wellFormed = false ∧
    (Instr.derive []).wellFormed = false ∧
    (Instr.derive (.other 120 :: symbols 0b101000001#9)).wellFormed = false ∧
    (Instr.configure (symbols 0b1010010#7) (symbols 0b01000011#8)).wellFormed = false ∧
    (Instr.configure (symbols 0b10100100#8) (symbols 0b1010011#7)).wellFormed = false ∧
    (Instr.configure (.other 120 :: symbols 0#7) (symbols 0#8)).wellFormed = false ∧
    (Instr.configure (symbols 0#8) (.other 120 :: symbols 0#7)).wellFormed = false ∧
    (Instr.encrypt (symbols 0b001010000#9)).wellFormed = false ∧
    (Instr.encrypt (.other 120 :: symbols 0#7)).wellFormed = false ∧
    (Instr.decrypt (symbols 0#7)).wellFormed = false ∧
    (Instr.decrypt (.other 50 :: symbols 0#7)).wellFormed = false := by decide

theorem test_wellFormed_accepts :
    (Instr.derive (symbols 0b1111111111#10)).wellFormed = true ∧
    (Instr.configure (symbols 0#8) (symbols 0xFF#8)).wellFormed = true ∧
    (Instr.encrypt (symbols 0x28#8)).wellFormed = true ∧
    (Instr.decrypt (symbols 0xDC#8)).wellFormed = true := by decide

/-! ### Decoding, words written out bit by bit from 30_encoding R38 -/

theorem test_decode_derive : decode 0b00_000000_1010000010#18 = .command (.derive (symbols 0b1010000010#10)) := by decide
theorem test_decode_configure :
    decode 0b01_10100100_01000011#18 = .command (.configure (symbols 0xA4#8) (symbols 0x43#8)) := by decide
theorem test_decode_encrypt : decode 0b10_00000000_00101000#18 = .command (.encrypt (symbols 0x28#8)) := by decide
theorem test_decode_decrypt : decode 0b11_00000000_11011100#18 = .command (.decrypt (symbols 0xDC#8)) := by decide

/-- Section 8, reserved-bit cases: each word decodes to `Bad`, and still names its operation. -/
theorem test_decode_bad :
    [0x00682#18, 0x0FE82#18, 0x20128#18, 0x2FF28#18, 0x38028#18].map
      (fun w => (match decode w with | .bad _ => true | .command _ => false, mnemonicOf w)) =
    [(true, .derive), (true, .derive), (true, .encrypt), (true, .encrypt), (true, .decrypt)] := by decide

/-- U14: the alternative policy ignores the reserved bits. -/
theorem test_decode_ignore_policy : decodeWith { params with reservedPolicy := .ignore } 0x2FF28#18 = .command (.encrypt (symbols 0x28#8)) := by decide

/-- R39, columns `match` and `mask`. -/
theorem test_matchOf :
    matchOf .derive = 0x00000#18 ∧ matchOf .configure = 0x10000#18 ∧ matchOf .encrypt = 0x20000#18 ∧
    matchOf .decrypt = 0x30000#18 ∧ opMask = 0x30000#18 := by decide

/-- Other values of R7's parameters: the codes in the reverse order. -/
def testParams : Params :=
  { params with opcodes := ⟨3#2, 2#2, 1#2, 0#2, by decide⟩, statusCodes := ⟨3#2, 2#2, 1#2, 0#2, by decide⟩ }

/-- R7, worked by hand for 20 bits (log 19): ENCRYPT has 01 in bits 19:18; a CONFIGURE with bit 16 set is `Bad`. -/
theorem test_other_parameters :
    encodeWith testParams 20 (.encrypt (symbols 0x28#8)) = some 0x40028#20 ∧
    decodeWith testParams 0x40028#20 = .command (.encrypt (symbols 0x28#8)) ∧
    decodeWith testParams 0x91234#20 = .bad (.configure (symbols 0x112#10) (symbols 0x34#8)) ∧
    (Response.okBlock 0x28#8).wordWith testParams.statusCodes 20 = 0xC0028#20 := by decide

theorem test_encode :
    encode (.derive (symbols 0b1010000010#10)) = some 0x00282#18 ∧
    encode (.configure (symbols 0xA4#8) (symbols 0x43#8)) = some 0x1A443#18 ∧
    encode (.encrypt (symbols 0x28#8)) = some 0x20028#18 ∧
    encode (.decrypt (symbols 0xDC#8)) = some 0x300DC#18 ∧
    encode (.encrypt (.other 120 :: symbols 0#7)) = none := by decide

/-- The host's table words, three whole bytes each. -/
theorem test_decodeTableWord :
    decodeTableWord 24 0x00000 = some (.derive (symbols 0#10)) ∧
    decodeTableWord 24 0x10000 = some (.configure (symbols 0#8) (symbols 0#8)) ∧
    decodeTableWord 24 0x20000 = some (.encrypt (symbols 0#8)) ∧
    decodeTableWord 18 0x30000 = some (.decrypt (symbols 0#8)) ∧
    decodeTableWord 24 0x40000 = none := by decide

theorem test_withFetchWord :
    nextInput (State.reset.withFetchWord 24 0x1A443) = commandIn 0x1A443#18 ∧
    testView (step (State.reset.withFetchWord 24 0x1A443)) = testAnswer testKeys 0#18 ∧
    testView (step (State.reset.withFetchWord 24 0x20000)) = testAnswer .unconfigured 0x30000#18 := by decide

/-! ### Primitives (section 2): the one-hot vectors show every table entry -/

theorem test_P10 : (List.range 10).map (fun i => (permute P10 (seq 10 (512 >>> i))).toNat) =
    [0b0000001000, 0b0010000000, 0b1000000000, 0b0000100000, 0b0100000000, 0b0000000001, 0b0001000000, 0b0000000010,
      0b0000000100, 0b0000010000] := by decide
theorem test_P8 : (List.range 10).map (fun i => (permute P8 (seq 10 (512 >>> i))).toNat) =
    [0, 0, 0b01000000, 0b00010000, 0b00000100, 0b10000000, 0b00100000, 0b00001000, 0b00000001, 0b00000010] := by decide
theorem test_IP : (List.range 8).map (fun i => (permute IP (seq 8 (128 >>> i))).toNat) =
    [0b00010000, 0b10000000, 0b00100000, 0b00001000, 0b00000010, 0b01000000, 0b00000001, 0b00000100] := by decide
theorem test_IPinv : (List.range 8).map (fun i => (permute IPinv (seq 8 (128 >>> i))).toNat) =
    [0b01000000, 0b00000100, 0b00100000, 0b10000000, 0b00010000, 0b00000001, 0b00001000, 0b00000010] := by decide
theorem test_EP : (List.range 4).map (fun i => (permute EP (seq 4 (8 >>> i))).toNat) =
    [0b01000001, 0b00101000, 0b00010100, 0b10000010] := by decide
theorem test_P4 : (List.range 4).map (fun i => (permute P4 (seq 4 (8 >>> i))).toNat) =
    [0b0001, 0b1000, 0b0010, 0b0100] := by decide
theorem test_rotl :
    rotl 0b10000#5 1 = 0b00001#5 ∧ rotl 0b11000#5 2 = 0b00011#5 ∧ rotl 0b11110#5 2 = 0b11011#5 ∧
    rotl 0b10110#5 0 = 0b10110#5 ∧ rotl 0b10110#5 5 = 0b10110#5 ∧ rotl 0b10110#5 3 = 0b10101#5 := by decide
/-- R66's example; default boxes (log 4). -/
theorem test_sbox : rowIndex 0b1011#4 = 3 ∧ colIndex 0b1011#4 = 1 ∧ sbox standardS0 0b1011#4 = 0b01#2 := by decide
/-- Section 5, three rows; default boxes (log 4). -/
theorem test_F :
    F standardBoxes 0b10100100#8 0b0010#4 = 0b0100#4 ∧ F standardBoxes 0b01000011#8 0b1010#4 = 0b1111#4 ∧
    F standardBoxes 0b11101001#8 0b0010#4 = 0b1000#4 := by decide
/-- Section 6, two rows; default boxes (log 4). -/
theorem test_Round :
    Round standardBoxes 0b01000011#8 0b0010#4 0b1010#4 = 0b11011010#8 ∧
    Round standardBoxes 0#8 0b1111#4 0b0000#4 = 0b01110000#8 := by decide
/-- Section 7, vectors V2, V3 and V6; default boxes (log 4). -/
theorem test_crypt :
    encrypt standardBoxes 0b11101001#8 0b10100111#8 0b00101000#8 = 0b10001010#8 ∧
    encrypt standardBoxes 0b01011111#8 0b11111100#8 0b10100010#8 = 0b00111000#8 ∧
    encrypt standardBoxes 0b00000000#8 0b11111111#8 0b01010101#8 = 0b00011111#8 ∧
    decrypt standardBoxes 0b00000010#8 0b00001000#8 0b10000000#8 = 0b10011011#8 := by decide

/-- The constant boxes of section 7. -/
def testConstantBoxes : Boxes := ⟨fun _ _ => 0, fun _ _ => 3, fun h => absurd (congrFun (congrFun h 0) 0) (by decide)⟩

theorem test_constant_boxes : encrypt testConstantBoxes 0xA4#8 0x43#8 0b10000000#8 = 0b00101111#8 := by decide

/-! ### The instructions, at most two tests each -/

/-- Section 3, rows 1 and 2 and the all-ones key; C1: the pair the document prints belongs to 1010000010. -/
theorem test_derive :
    testView (exec (.derive (symbols 0b1010000010#10)) (testState .unconfigured)) = testAnswer .unconfigured 0x0A443#18 ∧
    testView (exec (.derive (symbols 0b1100011110#10)) (testState testKeys)) = testAnswer testKeys 0x0E9A7#18 ∧
    testView (exec (.derive (symbols 0b1111111111#10)) (testState testKeys)) = testAnswer testKeys 0x0FFFF#18 := by decide
/-- Section 8: nine symbols, the empty sequence, a bad symbol, and nine symbols one of them bad. -/
theorem test_derive_errors :
    testView (exec (.derive (symbols 0b101000001#9)) (testState testKeys)) = testAnswer testKeys 0x10000#18 ∧
    testView (exec (.derive []) (testState .unconfigured)) = testAnswer .unconfigured 0x10000#18 ∧
    testView (exec (.derive (.other 120 :: symbols 0#9)) (testState testKeys)) = testAnswer testKeys 0x20000#18 ∧
    testView (exec (.derive (.other 120 :: symbols 0#8)) (testState testKeys)) = testAnswer testKeys 0x10000#18 := by decide

/-- Section 4: first keys, new keys, and zero keys, which are keys. -/
theorem test_configure :
    testView (exec (.configure (symbols 0xA4#8) (symbols 0x43#8)) (testState .unconfigured)) = testAnswer testKeys 0#18 ∧
    testView (exec (.configure (symbols 0xE9#8) (symbols 0xA7#8)) (testState testKeys)) =
      testAnswer (.configured 0xE9#8 0xA7#8) 0#18 ∧
    testView (exec (.configure (symbols 0#8) (symbols 0#8)) (testState .unconfigured)) =
      testAnswer (.configured 0#8 0#8) 0#18 := by decide
/-- Section 4: a bad second operand leaves `K1` alone; length before symbol. -/
theorem test_configure_errors :
    testView (exec (.configure (symbols 0xE9#8) (symbols 0b1010011#7)) (testState testKeys)) = testAnswer testKeys 0x10000#18 ∧
    testView (exec (.configure (.other 120 :: symbols 0#7) (symbols 0xA7#8)) (testState testKeys)) =
      testAnswer testKeys 0x20000#18 ∧
    testView (exec (.configure (.other 120 :: symbols 0#7) (symbols 0b1010011#7)) (testState .unconfigured)) =
      testAnswer .unconfigured 0x10000#18 := by decide

/-- Vector V1; default boxes (log 4). -/
theorem test_encrypt : testView (exec (.encrypt (symbols 0x28#8)) (testState testKeys)) = testAnswer testKeys 0x000DC#18 := by
  decide
/-- Section 8: NotConfigured, and the other two kinds before it. -/
theorem test_encrypt_errors :
    testView (exec (.encrypt (symbols 0x28#8)) (testState .unconfigured)) = testAnswer .unconfigured 0x30000#18 ∧
    testView (exec (.encrypt (symbols 0b0010100#7)) (testState .unconfigured)) = testAnswer .unconfigured 0x10000#18 ∧
    testView (exec (.encrypt (symbols 0b0010100#7 ++ [.other 120])) (testState .unconfigured)) =
      testAnswer .unconfigured 0x20000#18 := by decide

/-- Vector V1; default boxes (log 4). -/
theorem test_decrypt : testView (exec (.decrypt (symbols 0xDC#8)) (testState testKeys)) = testAnswer testKeys 0x00028#18 := by
  decide
/-- Section 8: seven symbols with a bad one report the length; NotConfigured. -/
theorem test_decrypt_errors :
    testView (exec (.decrypt (.other 50 :: symbols 0b010100#6)) (testState testKeys)) = testAnswer testKeys 0x10000#18 ∧
    testView (exec (.decrypt (symbols 0x28#8)) (testState .unconfigured)) = testAnswer .unconfigured 0x30000#18 := by decide

/-! ### The port (sections 8 and 9) -/

theorem test_step_bad_words :
    testView (step (present (commandIn 0x2FF28#18) (testState .unconfigured))) = testAnswer .unconfigured 0x10000#18 ∧
    testView (step (present (commandIn 0x38028#18) (testState testKeys))) = testAnswer testKeys 0x10000#18 ∧
    testView (step (present (commandIn 0x1FFFF#18) (testState testKeys))) =
      testAnswer (.configured 0xFF#8 0xFF#8) 0#18 := by decide
theorem test_step_reset :
    testView (step (present ⟨true, true, 0x20028#18⟩ (testState testKeys))) = some (.unconfigured, noResponse) ∧
    testView (step (present resetIn (testState .unconfigured))) = some (.unconfigured, noResponse) := by decide
theorem test_step_idle :
    testView (step (present ⟨false, false, 0x1FFFF#18⟩ (testState testKeys))) = some (testKeys, noResponse) ∧
    testView (step (testState testKeys)) = some (testKeys, noResponse) := by decide
/-- P1 step 2: `CONFIGURE $` after the response of step 1. -/
theorem test_listing_configureKeys :
    (runLine .configureKeys (testState .unconfigured) (copyAfter .derive 0x0A443#18)).map (fun r => r.1.ce) = some testKeys ∧
    runLine .configureKeys (testState .unconfigured) (copyAfter .encrypt 0x0A443#18) = none := by decide

/-! ### Witnesses: for each statement with hypotheses, values that meet them, clause by clause -/

theorem witness_DecodeOfEncode : ∃ i : Instr, i.wellFormed = true := ⟨.derive (symbols 0b1111111111#10), by decide⟩

theorem witness_EncodeOfDecode :
    (∃ i, decode 0x1FFFF#18 = .command i) ∧ (∃ j, decode 0x20100#18 = .bad j) := ⟨⟨_, rfl⟩, ⟨_, rfl⟩⟩

/-- Boundary words of the seven clauses. -/
theorem witness_DecodeFollowsFields :
    ((0x003FF#18).extractLsb' 16 2 = 0b00#2 ∧ (0x003FF#18).extractLsb' 10 6 = 0#6) ∧
    ((0x00400#18).extractLsb' 16 2 = 0b00#2 ∧ (0x00400#18).extractLsb' 10 6 ≠ 0#6) ∧
    (0x1FFFF#18).extractLsb' 16 2 = 0b01#2 ∧
    ((0x200FF#18).extractLsb' 16 2 = 0b10#2 ∧ (0x200FF#18).extractLsb' 8 8 = 0#8) ∧
    ((0x20100#18).extractLsb' 16 2 = 0b10#2 ∧ (0x20100#18).extractLsb' 8 8 ≠ 0#8) ∧
    ((0x300FF#18).extractLsb' 16 2 = 0b11#2 ∧ (0x300FF#18).extractLsb' 8 8 = 0#8) ∧
    ((0x30100#18).extractLsb' 16 2 = 0b11#2 ∧ (0x30100#18).extractLsb' 8 8 ≠ 0#8) := by decide

theorem witness_PermuteByIndex : 7 < 8 ∧ P8.entry 7 = 9 := by decide
theorem witness_RotationLaws : 4 < 5 ∧ pos (rotl 0b10000#5 1) 4 = true := by decide
theorem witness_SplitThenConcatenate : 4 < 5 ∧ pos (slice 0b0000000001#10 5 5) 4 = true := by decide
theorem witness_SboxLookup :
    (3 : Fin 4).val = 2 * (pos 0b1011#4 0).toNat + (pos 0b1011#4 3).toNat ∧
    (1 : Fin 4).val = 2 * (pos 0b1011#4 1).toNat + (pos 0b1011#4 2).toNat := by decide

theorem witness_DeriveRule :
    (symbols 0#9).length ≠ 10 ∧ (symbols 0#11).length ≠ 10 ∧
    ((Symbol.other 120 :: symbols 0#9).length = 10 ∧ (Symbol.other 120 :: symbols 0#9).all Symbol.isBit = false) ∧
    ((0x003FF#18).extractLsb' 16 2 = 0b00#2 ∧ (0x003FF#18).extractLsb' 10 6 = 0#6) ∧
    ((0x00400#18).extractLsb' 16 2 = 0b00#2 ∧ (0x00400#18).extractLsb' 10 6 ≠ 0#6) := by decide
theorem witness_DeriveClosedForm : 7 < 8 ∧ pos (derive 0b1000000000#10).2 7 = true := by decide
theorem witness_DeriveInjective : derive 0b1010000010#10 = derive 0b1010000010#10 := rfl

theorem witness_ConfigureRule :
    ((symbols 0#7).length ≠ 8 ∨ (symbols 0#8).length ≠ 8) ∧ ((symbols 0#8).length ≠ 8 ∨ (symbols 0#9).length ≠ 8) ∧
    ((Symbol.other 120 :: symbols 0#7).length = 8 ∧ (symbols 0#8).length = 8 ∧
      ((Symbol.other 120 :: symbols 0#7).all Symbol.isBit = false ∨ (symbols 0#8).all Symbol.isBit = false)) ∧
    ((0x10000#18).extractLsb' 16 2 = 0b01#2 ∧ (0x1FFFF#18).extractLsb' 16 2 = 0b01#2) ∧
    ((Instr.derive (symbols 0#10)).mnemonic ≠ .configure ∧ ∃ t, exec (.derive (symbols 0#10)) State.reset = .next t) :=
  ⟨by decide, by decide, by decide, by decide, by decide, _, rfl⟩

theorem witness_EncryptRule :
    (testState testKeys).ce = .configured 0xA4#8 0x43#8 ∧ (symbols 0#7).length ≠ 8 ∧ (symbols 0#9).length ≠ 8 ∧
    ((Symbol.other 120 :: symbols 0#7).length = 8 ∧ (Symbol.other 120 :: symbols 0#7).all Symbol.isBit = false) ∧
    State.reset.ce = .unconfigured ∧
    ((0x200FF#18).extractLsb' 16 2 = 0b10#2 ∧ (0x200FF#18).extractLsb' 8 8 = 0#8) ∧
    ((0x20100#18).extractLsb' 16 2 = 0b10#2 ∧ (0x20100#18).extractLsb' 8 8 ≠ 0#8) := by decide
theorem witness_DecryptRule :
    (testState testKeys).ce = .configured 0xA4#8 0x43#8 ∧ (symbols 0#7).length ≠ 8 ∧ (symbols 0#9).length ≠ 8 ∧
    ((symbols 0#7 ++ [Symbol.other 50]).length = 8 ∧ (symbols 0#7 ++ [Symbol.other 50]).all Symbol.isBit = false) ∧
    State.reset.ce = .unconfigured ∧
    ((0x300FF#18).extractLsb' 16 2 = 0b11#2 ∧ (0x300FF#18).extractLsb' 8 8 = 0#8) ∧
    ((0x38000#18).extractLsb' 16 2 = 0b11#2 ∧ (0x38000#18).extractLsb' 8 8 ≠ 0#8) := by decide

/-- Key `10100100`, half `0010`, whose index pairs 95_test_vectors section 5 lists: (3, 1) and (0, 0). -/
theorem witness_RoundFunctionBits :
    (3 : Fin 4).val = 2 * (pos 0b0010#4 3 ^^ pos 0xA4#8 0).toNat + (pos 0b0010#4 2 ^^ pos 0xA4#8 3).toNat ∧
    (1 : Fin 4).val = 2 * (pos 0b0010#4 0 ^^ pos 0xA4#8 1).toNat + (pos 0b0010#4 1 ^^ pos 0xA4#8 2).toNat ∧
    (0 : Fin 4).val = 2 * (pos 0b0010#4 1 ^^ pos 0xA4#8 4).toNat + (pos 0b0010#4 0 ^^ pos 0xA4#8 7).toNat ∧
    (0 : Fin 4).val = 2 * (pos 0b0010#4 2 ^^ pos 0xA4#8 5).toNat + (pos 0b0010#4 3 ^^ pos 0xA4#8 6).toNat := by decide
theorem witness_CryptInHalves : permute IP 0b00101000#8 = 0b0010#4 ++ 0b0010#4 := by decide
theorem witness_FlippedBitShows :
    (∀ j < 8, pos 0b10000000#8 j = decide (j = 0)) ∧ (∀ j < 8, pos 0b00000001#8 j = decide (j = 7)) := by decide
theorem witness_EqualSubkeysSelfInverse : (derive 0b0111101000#10).1 = (derive 0b0111101000#10).2 := by decide
theorem witness_ConstantBoxesShowTheWiring :
    (∀ r c, testConstantBoxes.s0 r c = 0) ∧ (∀ r c, testConstantBoxes.s1 r c = 3) := by decide

theorem witness_FailureUnderAnyPriority :
    errorOf (l1Step params (.encrypt (symbols 0x28#8)) .unconfigured).2 = some .notConfigured := by decide

theorem witness_FailingCommandLeavesNoTrace :
    ∃ t o, step (present (commandIn 0x20028#18) State.reset) = .next t ∧ t.outputs = State.reset.outputs ++ [o] ∧
      isError o = true := ⟨_, _, rfl, rfl, by decide⟩

theorem witness_FailingCommandLeavesNoTrace_L1 :
    ∃ t o, exec (.configure (symbols 0#7) (symbols 0#8)) (testState testKeys) = .next t ∧
      t.outputs = (testState testKeys).outputs ++ [o] ∧ isError o = true := ⟨_, _, rfl, rfl, by decide⟩

/-- A loaded core, a host that sends one ENCRYPT and one idle edge. -/
theorem witness_ConfiguredHostRunsSafely :
    ∃ s : State, s.ce ≠ .unconfigured ∧ s.inputs ≠ [] ∧
      ∀ p ∈ s.inputs, p.rst = false ∧ (p.cmdValid = true → ∃ i, decode p.cmd = .command i) := by
  refine ⟨⟨testKeys, [commandIn 0x20028#18, idleIn], []⟩, by decide, by decide, fun p hp => ?_⟩
  rcases List.mem_cons.mp hp with rfl | hp
  · exact ⟨rfl, fun _ => ⟨_, rfl⟩⟩
  · rw [List.mem_singleton.mp hp]
    exact ⟨rfl, fun h => absurd h (by decide)⟩

theorem witness_ResetEdge : resetIn.rst = true ∧ (InputPorts.mk true true 0x20028#18).rst = true := by decide
theorem witness_IdleEdge : idleIn.rst = false ∧ idleIn.cmdValid = false := by decide

theorem witness_StepRunsDecodedInstruction :
    ∃ (s : State) (p : PortIn) (rest : List PortIn) (i : Instr),
      s.inputs = p :: rest ∧ p.rst = false ∧ p.cmdValid = true ∧ decode p.cmd = .command i :=
  ⟨present (commandIn 0x1A443#18) State.reset, _, _, _, rfl, rfl, rfl, rfl⟩

theorem witness_OneResponsePerCommand :
    ∃ s t : State, s.inputs = [commandIn 0x1A443#18, idleIn, resetIn] ∧ run s.inputs.length s = .next t :=
  ⟨⟨testKeys, [commandIn 0x1A443#18, idleIn, resetIn], []⟩, _, rfl, rfl⟩

theorem witness_InstructionFrames :
    (∃ t, exec (.derive (symbols 0#10)) State.reset = .next t) ∧
    (∃ t, exec (.encrypt (symbols 0#8)) State.reset = .next t) ∧
    (∃ t, exec (.decrypt (symbols 0#8)) State.reset = .next t) ∧
    (∃ t, exec (.configure (symbols 0#8) (symbols 0#8)) State.reset = .next t) :=
  ⟨⟨_, rfl⟩, ⟨_, rfl⟩, ⟨_, rfl⟩, ⟨_, rfl⟩⟩

theorem witness_OnlyConfigureAndResetWrite :
    ∃ s t : State, step s = .next t ∧ isWriter (nextInput s) = false ∧ s.ce = testKeys :=
  ⟨present (commandIn 0x20028#18) (testState testKeys), _, rfl, by decide, rfl⟩

theorem witness_OnlyResetUnconfigures :
    ∃ s t : State, step s = .next t ∧ s.ce.cfg = 1#1 ∧ t.ce.cfg = 0#1 :=
  ⟨present resetIn (testState testKeys), _, rfl, rfl, rfl⟩

theorem witness_UnconfiguredUntilConfigure :
    ∃ (s t : State), s.ce = .unconfigured ∧ (∀ p ∈ s.inputs, isConfigure p = false) ∧ run 2 s = .next t :=
  ⟨⟨.unconfigured, [resetIn, commandIn 0x20028#18], []⟩, _, rfl, by decide, rfl⟩

theorem witness_KeysStayLoaded :
    ∃ (s t : State) (k1 k2 : SubKey), s.ce = .configured k1 k2 ∧ (∀ p ∈ s.inputs, isWriter p = false) ∧
      run 2 s = .next t :=
  ⟨⟨testKeys, [commandIn 0x2FF28#18, idleIn], []⟩, _, 0xA4#8, 0x43#8, rfl, by decide, rfl⟩

theorem witness_NoHiddenState :
    ∃ s s' t t' : State, s.ce = s'.ce ∧ s.inputs = s'.inputs ∧ s.outputs ≠ s'.outputs ∧
      run 1 s = .next t ∧ run 1 s' = .next t' :=
  ⟨⟨testKeys, [commandIn 0x00282#18], []⟩, ⟨testKeys, [commandIn 0x00282#18], [noResponse]⟩, _, _, rfl, rfl,
    by decide, rfl, rfl⟩

theorem witness_OutputsStayLegal :
    ∃ s t : State, outputsLegal s ∧ s.outputs ≠ [] ∧ step s = .next t :=
  ⟨⟨testKeys, [commandIn 0x20128#18], [noResponse, ⟨true, 0x0A443#18⟩]⟩, _,
    by unfold outputsLegal; decide, by decide, rfl⟩

/-- R7: other codes, and widths of 20 bits. -/
theorem witness_DecodeOfEncodeAnyParameters : 18 ≤ 20 ∧ (Instr.encrypt (symbols 0xFF#8)).wellFormed = true := by decide

theorem witness_ResponseFieldsAnyCodes :
    18 ≤ 20 ∧ (Response.err .notConfigured).wordWith testParams.statusCodes 20 =
      (Response.err .notConfigured).wordWith testParams.statusCodes 20 := by decide

theorem witness_RoundTripAnyParameters :
    ∃ wc we wd : BitVec 20, 18 ≤ 20 ∧
      encodeWith testParams 20 (.configure (symbols 0xA4#8) (symbols 0x43#8)) = some wc ∧
      encodeWith testParams 20 (.encrypt (symbols 0x28#8)) = some we ∧
      encodeWith testParams 20 (.decrypt (symbols (encrypt testParams.boxes 0xA4#8 0x43#8 0x28#8))) = some wd :=
  ⟨_, _, _, by decide, rfl, rfl, rfl⟩
end

section
/-!
PROOFS for 20_memory (R34, R128): no step and no run stops, and a command word is answered in the step that presents it.
-/

namespace Sys2Proof.Machine

/-- R34: every state has a next state. -/
theorem exists_step_eq_next (s : State) : ∃ t, step s = .next t :=
  ⟨_, step_eq s⟩

/-- R128: every number of steps completes, since each step hands a state to the next one. -/
theorem exists_run_eq_next (k : Nat) (s : State) : ∃ t, run k s = .next t := by
  induction k generalizing s with
  | zero => exact ⟨s, rfl⟩
  | succ k ih =>
    rw [run_succ]
    exact ih _

/-- R37 (b): at an edge that presents a word, the port makes the L2 step and shows its response. -/
theorem portStep_commandIn (p : Params) {cmdW : Nat} (rspW : Nat) (w : BitVec cmdW) (ce : CE) :
    portStep p rspW (commandIn w) ce = ((l2Step p w ce).1, responseWith p.statusCodes rspW (l2Step p w ce).2) :=
  rfl

/-- R37 (b), R41: a step that presents a word makes its L2 step and shows the response; the host's later inputs stand as they were. -/
theorem step_present_commandIn (s : State) (w : CmdWord) :
    step (present (commandIn w) s) = .next (answer s (l2Step params w s.ce)) := by
  rw [step_eq, nextInput_present, consume_present, present_ce, portStep_commandIn]
  rfl

/-- Settles O40: the port at one edge is a total function, a run chains its steps, and a presented word's step ends in an answer. -/
theorem everyRunCompletes : Obligations.EveryRunCompletes := by
  refine ⟨exists_step_eq_next, exists_run_eq_next, fun s w => ?_⟩
  refine ⟨answer s (l2Step params w s.ce), (l2Step params w s.ce).2.word, step_present_commandIn s w, ?_⟩
  rw [answer_outputs, responseOut, responseWith_params]

end Sys2Proof.Machine
end

section
/-!
PROOFS for 40_tables_and_primitives (R57 to R60, R63, R66): permutation by a table, rotation, split and concatenation, the facts
about the printed tables, and the S-box lookup.
-/

namespace Sys2Proof.Machine

/-! ### Split and concatenation (R60) -/

/-- R60: the two parts of a sequence, put together again. -/
theorem slice_append_slice {k n : Nat} (s : BitVec (k + n)) : slice s 0 k ++ slice s k n = s := by
  refine pos_ext fun i hi => ?_
  rw [pos_append]
  split
  next hik => rw [pos_slice _ _ hik, Nat.zero_add]
  next hik => rw [pos_slice _ _ (by omega), show k + (i - k) = i by omega]

/-- Settles O9, from what slices and concatenations hold position by position. -/
theorem splitThenConcatenate : Obligations.SplitThenConcatenate :=
  ⟨fun _ a _ _ s hi => pos_slice s a hi,
    fun _ _ i a b => pos_append a b i,
    fun _ _ s => slice_append_slice s,
    fun _ _ a b => ⟨slice_append_left a b, slice_append_right a b⟩⟩

/-! ### Rotation (R59) -/

theorem pos_rotl {n : Nat} (x : BitVec n) (r : Nat) {i : Nat} (hi : i < n) :
    pos (rotl x r) i = pos x ((i + r) % n) :=
  pos_ofPositions _ hi

/-- One step of the rotation moves position 0 to the end: only there does the index wrap around. -/
theorem rotl_one {n : Nat} (x : BitVec (n + 1)) : rotl x 1 = slice x 1 n ++ slice x 0 1 := by
  refine pos_ext fun i hi => ?_
  rw [pos_rotl x 1 hi, pos_append]
  split
  next hin => rw [pos_slice _ _ hin, Nat.mod_eq_of_lt (by omega), Nat.add_comm i 1]
  next hin =>
    obtain rfl : i = n := by omega
    rw [Nat.mod_self, Nat.sub_self, pos_slice _ _ Nat.one_pos]

theorem rotl_zero {n : Nat} (x : BitVec n) : rotl x 0 = x :=
  pos_ext fun i hi => by rw [pos_rotl x 0 hi, Nat.add_zero, Nat.mod_eq_of_lt hi]

/-- A full turn is no turn. -/
theorem rotl_length {n : Nat} (x : BitVec n) : rotl x n = x :=
  pos_ext fun i hi => by rw [pos_rotl x n hi, Nat.add_mod_right, Nat.mod_eq_of_lt hi]

/-- Counts add, since the index of the inner rotation is reduced once more by the outer one. -/
theorem rotl_rotl {n : Nat} (x : BitVec n) (a b : Nat) : rotl (rotl x a) b = rotl x (a + b) := by
  refine pos_ext fun i hi => ?_
  have hib : (i + b) % n < n := Nat.mod_lt _ (by omega)
  rw [pos_rotl _ b hi, pos_rotl x a hib, pos_rotl x (a + b) hi, Nat.mod_add_mod, Nat.add_assoc, Nat.add_comm b a]

/-- Settles O8, law by law, each one from the index law. -/
theorem rotationLaws : Obligations.RotationLaws :=
  ⟨fun _ r x _ hi => pos_rotl x r hi,
    fun _ x => rotl_one x,
    fun _ x => ⟨rotl_zero x, rotl_length x⟩,
    fun _ a b x => rotl_rotl x a b⟩

/-! ### Permutation by a table (R57, R58) -/

theorem pos_permute {n m : Nat} (T : PermTable n m) (x : BitVec n) {i : Nat} (hi : i < m) :
    pos (permute T x) i = pos x (T.entry i - 1) :=
  pos_ofPositions _ hi

/-- Settles O7, by the index law of `permute`. -/
theorem permuteByIndex : Obligations.PermuteByIndex :=
  fun _ _ T x _ hi => pos_permute T x hi

/-- R50: every entry names a position of the input, counted from 1. -/
theorem PermTable.entry_sub_one_lt {n m : Nat} (T : PermTable n m) {i : Nat} (hi : i < m) : T.entry i - 1 < n := by
  have hlen : i < T.entries.length := hi.trans_eq T.arity.symm
  have hmem : T.entry i ∈ T.entries := by
    rw [PermTable.entry, List.getD_eq_getElem _ _ hlen]
    exact List.getElem_mem hlen
  have hrange := T.inRange _ hmem
  omega

/-- `U` undoes `T` when each position, sent through `U`'s entry and then `T`'s, comes back to itself. -/
theorem permute_permute_of_inverse {n m : Nat} (T : PermTable n m) (U : PermTable m n) (x : BitVec n)
    (hinv : ∀ i < n, T.entry (U.entry i - 1) - 1 = i) : permute U (permute T x) = x := by
  refine pos_ext fun i hi => ?_
  rw [pos_permute U _ hi, pos_permute T x (U.entry_sub_one_lt hi), hinv i hi]

/-- R58 (d): the final permutation undoes the initial one. -/
theorem permute_IPinv_permute_IP (x : Block) : permute IPinv (permute IP x) = x :=
  permute_permute_of_inverse IP IPinv x (by decide)

/-- R58 (d): the initial permutation undoes the final one. -/
theorem permute_IP_permute_IPinv (x : Block) : permute IP (permute IPinv x) = x :=
  permute_permute_of_inverse IPinv IP x (by decide)

/-- Settles O10: the entries by comparison of the printed lists, the inverses by their entries. -/
theorem tableProperties : Obligations.TableProperties :=
  ⟨by decide, by decide, by decide, by decide, by decide, by decide,
    fun x => ⟨permute_IPinv_permute_IP x, permute_IP_permute_IPinv x⟩⟩

/-! ### S-box lookup (R63, R66) -/

/-- R63: row and column of a lookup are the ones whose values the outer and the inner bits give. -/
theorem eq_bitPair {k : Fin 4} {a b : Bool} (hk : k.val = 2 * a.toNat + b.toNat) : k = bitPair a b :=
  Fin.ext hk

/-- R66: an entry fits in the two bits that show it. -/
theorem toNat_sbox (S : SBox) (h : Half) : (sbox S h).toNat = (S (rowIndex h) (colIndex h)).val :=
  (BitVec.toNat_ofNat _ 2).trans (Nat.mod_eq_of_lt (S (rowIndex h) (colIndex h)).isLt)

/-- R66: the two bits of a 2-bit sequence, most significant first, are the quotient and the remainder of its value by 2. -/
theorem pos_two_bits (w : BitVec 2) : (pos w 0).toNat = w.toNat / 2 ∧ (pos w 1).toNat = w.toNat % 2 := by
  revert w
  decide

/-- Settles O11: the hypotheses name the looked-up row and column, and the entry's two bits are those of its value. -/
theorem sboxLookup : Obligations.SboxLookup := by
  intro S h row col hrow hcol
  obtain rfl : row = rowIndex h := eq_bitPair hrow
  obtain rfl : col = colIndex h := eq_bitPair hcol
  rw [← toNat_sbox S h]
  exact ⟨rfl, pos_two_bits (sbox S h)⟩

end Sys2Proof.Machine
end

section
/-!
PROOFS for 42_cipher (R83): the two halves of a round's result.
-/

namespace Sys2Proof.Machine

/-- R83: the left half takes in the permuted round function of the right half. -/
@[simp]
theorem slice_Round_left (B : Boxes) (key : SubKey) (left4 right4 : Half) :
    slice (Round B key left4 right4) 0 4 = left4 ^^^ permute P4 (F B key right4) :=
  slice_append_left (left4 ^^^ permute P4 (F B key right4)) right4

/-- R83: the original right half passes through, the defining Feistel property. -/
@[simp]
theorem slice_Round_right (B : Boxes) (key : SubKey) (left4 right4 : Half) :
    slice (Round B key left4 right4) 4 4 = right4 :=
  slice_append_right (left4 ^^^ permute P4 (F B key right4)) right4

/-- Settles O22, half by half: a round is a concatenation, and each slice takes one part of it. -/
theorem roundKeepsRightHalf : Obligations.RoundKeepsRightHalf :=
  fun B key left4 right4 => ⟨slice_Round_left B key left4 right4, slice_Round_right B key left4 right4⟩

end Sys2Proof.Machine
end

section
/-!
PROOFS for 60_exceptions (R104, R106): a failing command leaves the cipher engine as it was, so the next edge meets the same state.
-/

namespace Sys2Proof.Machine

/-- R40: the output that shows a response is an error exactly when the response is one. -/
theorem isError_responseOut (r : Response) : isError (responseOut r) = (errorOf r).isSome := by
  have hstatus : isError (responseOut r) = (statusOf params.statusCodes r != 0b00#2) :=
    congrArg (· != 0b00#2) (topField_packWord (by decide) (statusOf params.statusCodes r) (rdataOf r))
  rw [hstatus]
  cases r with
  | okKeys k1 k2 => rfl
  | okDone => rfl
  | okBlock b => rfl
  | err kind => cases kind <;> rfl

/-- R104 at L1: CONFIGURE is the only writer, and when it fails it loads neither key. -/
theorem l1Step_ce_of_error (p : Params) (i : Instr) (ce : CE) (herr : (errorOf (l1Step p i ce).2).isSome = true) :
    (l1Step p i ce).1 = ce := by
  cases i with
  | configure a b =>
    rw [l1Step] at herr ⊢
    rcases configureCall_spec p a b ce with ⟨k1, k2, _, _, hok⟩ | ⟨_, hfail⟩
    · rw [hok] at herr
      exact absurd herr Bool.false_ne_true
    · rw [hfail]
  | derive | encrypt | decrypt => exact l1Step_ce p _ ce (by simp [Instr.mnemonic])

/-- R104 at L2: a `Bad` word leaves the state as it is, and any other word is its L1 command. -/
theorem l2Step_ce_of_error (p : Params) {cmdW : Nat} (w : BitVec cmdW) (ce : CE)
    (herr : (errorOf (l2Step p w ce).2).isSome = true) : (l2Step p w ce).1 = ce := by
  unfold l2Step at herr ⊢
  cases hw : decodeWith p w with
  | command i =>
    rw [hw] at herr
    exact l1Step_ce_of_error p i ce herr
  | bad _ => rfl

/-- R37: the edge at which the host presents `p`: the port's new state and outputs; the later inputs stand as they were. -/
theorem step_present (p : PortIn) (s : State) :
    step (present p s) = .next ⟨(portStep params 18 p s.ce).1, s.inputs, s.outputs ++ [(portStep params 18 p s.ce).2]⟩ :=
  step_eq (present p s)

/-- R106, for any answer whose errors leave CE as it was: the edge after an error meets the state that stood before it. -/
theorem step_present_answer_of_error {s : State} {result : CE × Response} {o : PortOut}
    (hce : (errorOf result.2).isSome = true → result.1 = s.ce)
    (hout : (answer s result).outputs = s.outputs ++ [o]) (herr : isError o = true) (p : PortIn) :
    ∃ ce out, step (present p s) = .next ⟨ce, s.inputs, s.outputs ++ [out]⟩ ∧
      step (present p (answer s result)) = .next ⟨ce, s.inputs, s.outputs ++ [o, out]⟩ := by
  obtain rfl : responseOut result.2 = o := by simpa using hout
  have hsame : result.1 = s.ce := hce (by rwa [← isError_responseOut])
  refine ⟨(portStep params 18 p s.ce).1, (portStep params 18 p s.ce).2, step_present p s, ?_⟩
  rw [step_present, answer_ce, hsame, answer_inputs, answer_outputs, List.append_assoc, List.singleton_append]

/-- Settles O34: at the port and at L1 the step ends in an answer, and an error among the answers has left CE as it was. -/
theorem failingCommandLeavesNoTrace : Obligations.FailingCommandLeavesNoTrace := by
  refine ⟨fun s t w o hstep hout herr p => ?_, fun s t i o hexec hout herr p => ?_⟩
  · rw [step_present_commandIn] at hstep
    cases hstep
    exact step_present_answer_of_error (l2Step_ce_of_error params w s.ce) hout herr p
  · rw [exec_eq] at hexec
    cases hexec
    exact step_present_answer_of_error (l1Step_ce_of_error params i s.ce) hout herr p

end Sys2Proof.Machine
end

section
/-!
PROOFS for 70_reset_and_hazards (R126): an edge that holds neither a reset nor a CONFIGURE leaves the cipher engine as it was, and so
does every run of such edges.
-/

namespace Sys2Proof.Machine

/-- R39, R41: a word that decodes to a command decodes to one of the operation its `op` field selects. -/
theorem mnemonic_of_decodeWith {p : Params} {n : Nat} {w : BitVec n} {i : Instr} (hdecode : decodeWith p w = .command i) :
    i.mnemonic = operationOf p.opcodes w := by
  unfold decodeWith reservedVerdict at hdecode
  cases hop : operationOf p.opcodes w with
  | derive | configure | encrypt | decrypt =>
    simp only [hop] at hdecode
    split at hdecode
    · cases hdecode
      rfl
    · cases hdecode

/-- R39: only a word whose `op` field holds the code of CONFIGURE selects CONFIGURE. -/
theorem topField_of_operationOf_configure {codes : OpCodes} {n : Nat} {w : BitVec n}
    (hop : operationOf codes w = .configure) : topField w = codes.configure := by
  by_contra htop
  rw [operationOf, if_neg htop] at hop
  split at hop
  · cases hop
  · split at hop <;> cases hop

/-- R22 at L2: a word that does not select CONFIGURE writes no state, whether it succeeds, fails or is `Bad`. -/
theorem l2Step_ce_of_not_configure {p : Params} {n : Nat} {w : BitVec n} (hop : operationOf p.opcodes w ≠ .configure) (ce : CE) :
    (l2Step p w ce).1 = ce := by
  unfold l2Step
  cases hdecode : decodeWith p w with
  | command i => exact l1Step_ce p i ce (mnemonic_of_decodeWith hdecode ▸ hop)
  | bad _ => rfl

/-- R23 at the port: without reset and CONFIGURE an edge leaves the cipher engine as it was. -/
theorem portStep_ce_of_not_writer {input : PortIn} (hinput : isWriter input = false) (ce : CE) :
    (portStep params 18 input ce).1 = ce := by
  obtain ⟨rst, cmdValid, w⟩ := input
  cases rst with
  | true => cases hinput
  | false =>
    cases cmdValid with
    | false => rfl
    | true =>
      refine l2Step_ce_of_not_configure (fun hop => ?_) ce
      have htop : w.extractLsb' 16 2 = 0b01#2 := topField_of_operationOf_configure hop
      simp [isWriter, isConfigure, htop] at hinput

/-- A host without a reset or a CONFIGURE in its list presents neither at the next edge, nor after its list has ended (log 1). -/
theorem nextInput_not_writer {s : State} (hinputs : ∀ p ∈ s.inputs, isWriter p = false) : isWriter (nextInput s) = false := by
  unfold nextInput
  cases hlist : s.inputs with
  | nil => rfl
  | cons p rest => exact hinputs p (by simp [hlist])

/-- R126 for the whole cipher engine: a run over inputs without reset and CONFIGURE ends with the `(cfg, K1, K2)` it began with. -/
theorem run_ce_of_no_writer {k : Nat} {s t : State} (hinputs : ∀ p ∈ s.inputs, isWriter p = false) (hrun : run k s = .next t) :
    t.ce = s.ce := by
  induction k generalizing s with
  | zero =>
    cases hrun
    rfl
  | succ k ih =>
    rw [run_succ, portStep_ce_of_not_writer (nextInput_not_writer hinputs)] at hrun
    exact ih (s := settle (consume s) s.ce _) (fun p hp => hinputs p (List.mem_of_mem_tail hp)) hrun

/-- Settles O48: the run ends with the cipher engine it began with, so each key still reads as the one it held. -/
theorem keysStayLoaded : Obligations.KeysStayLoaded := by
  intro k s t k1 k2 hconfigured hinputs hrun
  have hkept : t.ce = .configured k1 k2 := (run_ce_of_no_writer hinputs hrun).trans hconfigured
  rw [hkept]
  exact ⟨configured_k1 k1 k2, configured_k2 k1 k2⟩

end Sys2Proof.Machine
end

section
/-!
PROOFS for 30_encoding (R38, R39, R41 to R43): which operation a word selects under any assignment of opcode values, and the
encoder and the decoder as inverses of each other, at any width that holds the operands.
-/

namespace Sys2Proof.Machine

/-! ### The opcode field (R39, R43) -/

/-- R43: four different codes are all the values of a 2-bit field. -/
theorem mem_of_nodup_four {l : List (BitVec 2)} (hnodup : l.Nodup) (hlength : l.length = 4) (v : BitVec 2) : v ∈ l := by
  by_contra hv
  have hcard := (List.nodup_cons.mpr ⟨hv, hnodup⟩).length_le_card
  rw [List.length_cons, hlength, Fintype.card_congr (BitVec.equivFin).toEquiv, Fintype.card_fin] at hcard
  exact absurd hcard (by decide)

/-- R7: two operations never share a code. -/
theorem code_injective (codes : OpCodes) : Function.Injective codes.code := by
  obtain ⟨a, b, c, d, hdistinct⟩ := codes
  simp only [List.nodup_cons, List.mem_cons, List.not_mem_nil, or_false, not_or] at hdistinct
  intro m m' hcode
  cases m <;> cases m' <;> simp_all [OpCodes.code]

/-- R39: the operation a word selects is the one whose code stands in the word's `op` field. -/
theorem code_operationOf (codes : OpCodes) {n : Nat} (w : BitVec n) : codes.code (operationOf codes w) = topField w := by
  have hmem := mem_of_nodup_four codes.distinct rfl (topField w)
  simp only [List.mem_cons, List.not_mem_nil, or_false] at hmem
  unfold operationOf
  split_ifs with hderive hconfigure hencrypt
  · exact hderive.symm
  · exact hconfigure.symm
  · exact hencrypt.symm
  · exact (((hmem.resolve_left hderive).resolve_left hconfigure).resolve_left hencrypt).symm

/-- R39: the code in the `op` field and the operation selected say the same. -/
theorem topField_eq_code_iff (codes : OpCodes) {n : Nat} (w : BitVec n) (m : Mnemonic) :
    topField w = codes.code m ↔ operationOf codes w = m := by
  rw [← code_operationOf codes w, (code_injective codes).eq_iff]

/-- Settles O55, from the codes' being different and being all the values of the field. -/
theorem oneOperationAnyOpcodes : Obligations.OneOperationAnyOpcodes :=
  fun codes _ w m => topField_eq_code_iff codes w m

/-- R38: a word put together with an operation's code selects that operation. -/
theorem operationOf_packWord {n k : Nat} (hk : k + 2 ≤ n) (codes : OpCodes) (m : Mnemonic) (low : BitVec k) :
    operationOf codes (packWord n (codes.code m) low) = m :=
  (topField_eq_code_iff codes _ m).mp (topField_packWord hk _ _)

/-! ### The decoder after the encoder (R38, R41) -/

/-- R100, R101: an operand that passes both checks holds a bit sequence. -/
theorem exists_symbols_of_fits {n : Nat} {x : Operand} (hfits : Operand.fits n x = true) : ∃ v : BitVec n, x = symbols v := by
  rw [← readBits_isSome, Option.isSome_iff_exists] at hfits
  exact hfits.imp fun _ hv => readBits_eq_some.mp hv

/-- R45: an instruction has a word exactly when it is well formed, whatever the parameters and the width. -/
theorem encodeWith_isSome (p : Params) (n : Nat) (i : Instr) : (encodeWith p n i).isSome = i.wellFormed := by
  cases i with
  | configure a b =>
    rw [encodeWith, Instr.wellFormed, ← readBits_isSome, ← readBits_isSome]
    cases readBits 8 a <;> cases readBits 8 b <;> rfl
  | derive x | encrypt x | decrypt x =>
    rw [encodeWith, Instr.wellFormed, Option.isSome_map, readBits_isSome]

/-- R38: the word of CONFIGURE, its first operand in the byte above its second. -/
theorem encodeWith_configure (p : Params) (n : Nat) (a b : SubKey) :
    encodeWith p n (.configure (symbols a) (symbols b)) =
      some (packWord n (p.opcodes.code .configure) (a ++ b : BitVec 16)) := by
  simp only [encodeWith, readBits_symbols]

/-- R42: a word whose reserved bits are zero is a command under either policy. -/
theorem reservedVerdict_clear (policy : ReservedPolicy) (i presented : Instr) :
    reservedVerdict policy true i presented = .command i := rfl

/-- R41: at every width that holds the operands, an instruction's word decodes to the instruction. -/
theorem decodeWith_of_encodeWith {p : Params} {n : Nat} (hn : 18 ≤ n) {i : Instr} {w : BitVec n}
    (hencode : encodeWith p n i = some w) : decodeWith p w = .command i := by
  have hwf : i.wellFormed = true := by rw [← encodeWith_isSome p n, hencode, Option.isSome_some]
  cases i with
  | configure x y =>
    rw [Instr.wellFormed, Bool.and_eq_true] at hwf
    obtain ⟨a, rfl⟩ := exists_symbols_of_fits hwf.1
    obtain ⟨b, rfl⟩ := exists_symbols_of_fits hwf.2
    have ha : (a ++ b : BitVec 16).extractLsb' 8 8 = a := BitVec.extractLsb'_append_eq_left
    have hb : (a ++ b : BitVec 16).extractLsb' 0 8 = b := BitVec.extractLsb'_append_eq_right
    rw [encodeWith_configure] at hencode
    cases hencode
    simp only [decodeWith, operationOf_packWord hn, reservedClear_packWord hn, reservedVerdict_clear,
      part_packWord hn _ _ 8 8 (by decide), part_packWord hn _ _ 0 8 (by decide), ha, hb]
  | derive x =>
    have hk : 10 + 2 ≤ n := by omega
    obtain ⟨v, rfl⟩ := exists_symbols_of_fits hwf
    rw [encodeWith, readBits_symbols] at hencode
    cases hencode
    simp only [decodeWith, operationOf_packWord hk, reservedClear_packWord hk, reservedVerdict_clear, low_packWord hk]
  | encrypt x | decrypt x =>
    have hk : 8 + 2 ≤ n := by omega
    obtain ⟨v, rfl⟩ := exists_symbols_of_fits hwf
    rw [encodeWith, readBits_symbols] at hencode
    cases hencode
    simp only [decodeWith, operationOf_packWord hk, reservedClear_packWord hk, reservedVerdict_clear, low_packWord hk]

/-- Settles O54: a well-formed instruction has a word, and decoding takes each of its fields back. -/
theorem decodeOfEncodeAnyParameters : Obligations.DecodeOfEncodeAnyParameters := by
  intro p n i hn hwf
  rw [← encodeWith_isSome p n, Option.isSome_iff_exists] at hwf
  exact hwf.imp fun w hencode => ⟨hencode, decodeWith_of_encodeWith hn hencode⟩

/-- Settles O1: the case of this machine's parameters and 18 bits. -/
theorem decodeOfEncode : Obligations.DecodeOfEncode :=
  fun i hwf => decodeOfEncodeAnyParameters params 18 i le_rfl hwf

/-! ### The encoder after the decoder (R41, R42) -/

/-- R38: a word with zeros between its opcode and its low `k` bits is put together from the two. -/
theorem packWord_topField {n k : Nat} (hk : k + 2 ≤ n) {w : BitVec n} (hreserved : reservedClear k w = true) :
    packWord n (topField w) (w.extractLsb' 0 k) = w := by
  rw [reservedClear, beq_iff_eq] at hreserved
  apply BitVec.eq_of_getLsbD_eq
  intro j hj
  rw [getLsbD_packWord hk, topField]
  by_cases htop : j < n - 2
  · rw [if_pos htop]
    by_cases hlow : j < k
    · simp [hlow]
    · have hzero := congrArg (·.getLsbD (j - k)) hreserved
      simp only [BitVec.getLsbD_extractLsb', BitVec.getLsbD_zero, show k + (j - k) = j by omega,
        show j - k < n - 2 - k by omega, decide_true, Bool.true_and] at hzero
      simp [hlow, hzero]
  · rw [if_neg htop, BitVec.getLsbD_extractLsb', show n - 2 + (j - (n - 2)) = j by omega,
      decide_eq_true (show j - (n - 2) < 2 by omega), Bool.true_and]

/-- R42: under the policy that fails, a command comes only from zero reserved bits. -/
theorem reservedVerdict_fail_eq_command {clear : Bool} {i j presented : Instr}
    (h : reservedVerdict .fail clear i presented = .command j) : clear = true ∧ i = j := by
  cases clear with
  | true =>
    cases h
    exact ⟨rfl, rfl⟩
  | false => cases h

/-- R42: under that policy, a set reserved bit makes the word `Bad`. -/
theorem exists_reservedVerdict_eq_bad {n : Nat} {reserved : BitVec n} (hset : reserved ≠ 0#n) (i presented : Instr) :
    ∃ j, reservedVerdict .fail (reserved == 0#n) i presented = .bad j :=
  ⟨presented, by rw [beq_eq_false_iff_ne.mpr hset]; rfl⟩

/-- The two bytes of CONFIGURE's data field, put together again. -/
theorem bytes_append {n : Nat} (w : BitVec n) :
    (w.extractLsb' 8 8 ++ w.extractLsb' 0 8 : BitVec 16) = w.extractLsb' 0 16 :=
  BitVec.extractLsb'_append_extractLsb'_eq_extractLsb' rfl

/-- R41: where set reserved bits fail, a word that decodes to a command is the word of that command. -/
theorem encodeWith_of_decodeWith {p : Params} (hpolicy : p.reservedPolicy = .fail) {n : Nat} (hn : 18 ≤ n) {w : BitVec n}
    {i : Instr} (hdecode : decodeWith p w = .command i) : encodeWith p n i = some w := by
  have hcode := code_operationOf p.opcodes w
  unfold decodeWith at hdecode
  rw [hpolicy] at hdecode
  cases hop : operationOf p.opcodes w with
  | configure =>
    rw [hop] at hcode hdecode
    obtain ⟨hreserved, rfl⟩ := reservedVerdict_fail_eq_command hdecode
    rw [encodeWith_configure, bytes_append, hcode, packWord_topField hn hreserved]
  | derive | encrypt | decrypt =>
    rw [hop] at hcode hdecode
    obtain ⟨hreserved, rfl⟩ := reservedVerdict_fail_eq_command hdecode
    rw [encodeWith, readBits_symbols, Option.map_some, hcode, packWord_topField (by omega) hreserved]

/-- R41 in this machine: decoding to a command and being its word are the same. -/
theorem decode_eq_command_iff {w : CmdWord} {i : Instr} : decode w = .command i ↔ encode i = some w :=
  ⟨fun h => encodeWith_of_decodeWith rfl le_rfl h, fun h => decodeWith_of_encodeWith le_rfl h⟩

/-- R45: only a well-formed instruction comes out of the decoder. -/
theorem wellFormed_of_decode {w : CmdWord} {i : Instr} (hdecode : decode w = .command i) : i.wellFormed = true := by
  rw [← encodeWith_isSome params 18, show encodeWith params 18 i = some w from decode_eq_command_iff.mp hdecode,
    Option.isSome_some]

/-- Settles O2: both clauses from the equivalence of decoding to a command and being its word. -/
theorem encodeOfDecode : Obligations.EncodeOfDecode := by
  refine fun w => ⟨fun i hdecode => ⟨wellFormed_of_decode hdecode, decode_eq_command_iff.mp hdecode⟩, ?_⟩
  intro j hbad i hencode
  rw [decode_eq_command_iff.mpr hencode] at hbad
  cases hbad

/-! ### Mask, match and fields (R39, R41) -/

/-- R39: the mask keeps the `op` field alone. -/
theorem and_opMask (w : CmdWord) : w &&& opMask = packWord 18 (topField w) 0x0000#16 := by
  apply BitVec.eq_of_getLsbD_eq
  intro j hj
  rw [opMask, BitVec.getLsbD_and, getLsbD_packWord (by decide), getLsbD_packWord (by decide), topField]
  by_cases htop : j < 16
  · simp [htop]
  · have hones : (0b11#2).getLsbD (j - 16) = true := by
      obtain rfl | rfl : j = 16 ∨ j = 17 := by omega
      all_goals rfl
    simp [htop, hones, show j - 16 < 2 by omega, show 16 + (j - 16) = j by omega]

/-- R38: words put together with the same low bits agree exactly when their uppermost fields do. -/
theorem packWord_inj_top {n k : Nat} (hk : k + 2 ≤ n) {a b : BitVec 2} {low : BitVec k} :
    packWord n a low = packWord n b low ↔ a = b := by
  refine ⟨fun h => ?_, congrArg (packWord n · low)⟩
  rw [← topField_packWord hk a low, h, topField_packWord hk]

/-- R39, R41: a verdict, `Bad` or not, is about an instruction of the row the word selects. -/
theorem mnemonic_instr_decodeWith (p : Params) {n : Nat} (w : BitVec n) :
    (decodeWith p w).instr.mnemonic = operationOf p.opcodes w := by
  unfold decodeWith reservedVerdict
  cases operationOf p.opcodes w with
  | derive | configure | encrypt | decrypt => dsimp only; split <;> rfl

/-- Settles O3: masking leaves the `op` field, which selects one operation, and the decoder starts from that selection. -/
theorem wordSelectsOneRow : Obligations.WordSelectsOneRow := by
  refine fun w => ⟨fun m => ?_, mnemonic_instr_decodeWith params w⟩
  rw [and_opMask, matchOf, packWord_inj_top (by decide)]
  exact topField_eq_code_iff params.opcodes w m

/-- Settles O4, row by row of the decoder's table. -/
theorem decodeFollowsFields : Obligations.DecodeFollowsFields := by
  intro w
  rw [decode_eq]
  refine ⟨fun hop hzero => ?_, fun hop hset => ?_, fun hop => ?_, fun hop hzero => ?_, fun hop hset => ?_,
    fun hop hzero => ?_, fun hop hset => ?_⟩
  · simp [hop, hzero, reservedVerdict_clear]
  · simpa [hop] using exists_reservedVerdict_eq_bad hset _ _
  · simp [hop]
  · simp [hop, hzero, reservedVerdict_clear]
  · simpa [hop] using exists_reservedVerdict_eq_bad hset _ _
  · simp [hop, hzero, reservedVerdict_clear]
  · simpa [hop] using exists_reservedVerdict_eq_bad hset _ _

/-- Settles O5: the decoder, evaluated at the five words. -/
theorem sampleWordsDecode : Obligations.SampleWordsDecode :=
  ⟨by decide, by decide, by decide, by decide, by decide⟩

end Sys2Proof.Machine
end

section
/-!
PROOFS for 30_encoding (R40): a response word carries its status and its result field, and its error can be told from it.
-/

namespace Sys2Proof.Machine

/-- R40: the status code of a success or of an error kind. -/
def codeOfError (codes : StatusCodes) : Option ErrorKind → BitVec 2
  | none => codes.ok
  | some .invalidLength => codes.invalidLength
  | some .invalidSymbol => codes.invalidSymbol
  | some .notConfigured => codes.notConfigured

/-- R40: the status of a response depends on its error alone. -/
theorem statusOf_eq_codeOfError (codes : StatusCodes) (r : Response) : statusOf codes r = codeOfError codes (errorOf r) := by
  cases r with
  | okKeys k1 k2 | okDone | okBlock b => rfl
  | err kind => cases kind <;> rfl

/-- R7: two outcomes never share a status code. -/
theorem codeOfError_injective (codes : StatusCodes) : Function.Injective (codeOfError codes) := by
  obtain ⟨a, b, c, d, hdistinct⟩ := codes
  simp only [List.nodup_cons, List.mem_cons, List.not_mem_nil, or_false, not_or] at hdistinct
  rintro (_ | kind) (_ | kind') hcode
  · rfl
  · cases kind' <;> simp_all [codeOfError]
  · cases kind <;> simp_all [codeOfError]
  · cases kind <;> cases kind' <;> simp_all [codeOfError]

/-- R40: at every width that holds the result, the status stands in the two uppermost bits. -/
theorem statusField_wordWith {n : Nat} (hn : 18 ≤ n) (codes : StatusCodes) (r : Response) :
    statusField (r.wordWith codes n) = statusOf codes r :=
  topField_packWord hn _ _

/-- R40: the result field is right-aligned. -/
theorem rdataField_wordWith {n : Nat} (hn : 18 ≤ n) (codes : StatusCodes) (r : Response) :
    rdataField (r.wordWith codes n) = rdataOf r :=
  low_packWord hn _ _

/-- Settles O56: both fields are read back, and the status read back tells the error. -/
theorem responseFieldsAnyCodes : Obligations.ResponseFieldsAnyCodes := by
  refine fun codes n r hn => ⟨statusField_wordWith hn codes r, rdataField_wordWith hn codes r, fun r' hword => ?_⟩
  apply codeOfError_injective codes
  rw [← statusOf_eq_codeOfError, ← statusOf_eq_codeOfError, ← statusField_wordWith hn, hword, statusField_wordWith hn]

/-- R40: a part of the result field, in this machine's word. -/
theorem extractLsb'_word (r : Response) (a len : Nat) (h : a + len ≤ 16) :
    r.word.extractLsb' a len = (rdataOf r).extractLsb' a len :=
  part_packWord (by decide) _ _ a len h

/-- Settles O6: the success words by their fields, the four words without data by evaluation. -/
theorem responseWordFields : Obligations.ResponseWordFields := by
  refine ⟨fun k1 k2 => ⟨statusField_wordWith le_rfl _ _, ?_, ?_⟩, word_okDone,
    fun b => ⟨statusField_wordWith le_rfl _ _, ?_, ?_⟩, word_invalidLength, word_invalidSymbol, word_notConfigured⟩
  all_goals rw [extractLsb'_word _ _ _ (by decide), rdataOf]
  · exact BitVec.extractLsb'_append_eq_left
  · exact BitVec.extractLsb'_append_eq_right
  · exact BitVec.extractLsb'_append_eq_left
  · exact BitVec.extractLsb'_append_eq_right

end Sys2Proof.Machine
end

section
/-!
PROOFS for 60_exceptions (R100 to R104): when an L1 command fails, under any order of the error kinds, and which kind it
then reports.
-/

namespace Sys2Proof.Machine

/-- R102: the command needs the keys and `cfg` is 0. -/
def lacksKeys (i : Instr) (ce : CE) : Bool :=
  needsKeys i && ce == .unconfigured

theorem lacksKeys_iff (i : Instr) (ce : CE) : lacksKeys i ce = true ↔ needsKeys i = true ∧ ce = .unconfigured := by
  rw [lacksKeys, Bool.and_eq_true, beq_iff_eq]

/-- R13: `cfg` reads 0 in the unconfigured state alone. -/
theorem cfg_beq_zero (ce : CE) : (ce.cfg == 0#1) = (ce == .unconfigured) := by
  cases ce <;> rfl

/-- R100, R101: a command is ill formed when a check of its operands fails. -/
theorem not_wellFormed_iff (i : Instr) :
    i.wellFormed = false ↔ wrongLength (operandsOf i) = true ∨ badSymbol (operandsOf i) = true := by
  cases i with
  | derive x => exact not_fits_iff 10 x
  | encrypt x | decrypt x => exact not_fits_iff 8 x
  | configure a b =>
    have ha := not_fits_iff 8 a
    have hb := not_fits_iff 8 b
    simp only [wrongLength, badSymbol, List.any_cons, List.any_nil, Bool.or_false] at ha hb
    simp only [Instr.wellFormed, Bool.and_eq_false_iff, ha, hb, operandsOf, wrongLength, badSymbol, List.any_cons,
      List.any_nil, Bool.or_false, Bool.or_eq_true]
    tauto

/-- R100 to R102: a command that is well formed and has the keys it needs does not fail. -/
theorem errorOf_l1Step_of_wellFormed (p : Params) {i : Instr} {ce : CE} (hwf : i.wellFormed = true)
    (hkeys : lacksKeys i ce = false) : errorOf (l1Step p i ce).2 = none := by
  cases i with
  | derive x =>
    rcases deriveCall_spec p x ce with ⟨m, _, hok⟩ | ⟨hfits, _⟩
    · rw [l1Step, hok, errorOf]
    · exact absurd hwf (Bool.eq_false_iff.mp hfits)
  | configure a b =>
    rcases configureCall_spec p a b ce with ⟨k1, k2, _, _, hok⟩ | ⟨hfits, _⟩
    · rw [l1Step, hok, errorOf]
    · exact absurd hwf (Bool.eq_false_iff.mp hfits)
  | encrypt x | decrypt x =>
    simp only [l1Step, encryptCall, decryptCall]
    rcases blockCall_spec p _ x ce with ⟨k1, k2, b, _, _, hok⟩ | ⟨rfl | hfits, _⟩
    · rw [hok, errorOf]
    · cases hkeys
    · exact absurd hwf (Bool.eq_false_iff.mp hfits)

/-- R104: any other command enters the error, with the first of its causes in the order. -/
theorem l1Step_of_cause (p : Params) {i : Instr} {ce : CE} (hcause : i.wellFormed = false ∨ lacksKeys i ce = true) :
    l1Step p i ce = (ce, .err (report p.errPriority (causes (operandsOf i) (lacksKeys i ce)))) := by
  cases i with
  | derive x =>
    rcases deriveCall_spec p x ce with ⟨m, rfl, _⟩ | ⟨_, hfail⟩
    · simp [Instr.wellFormed, fits_symbols, lacksKeys, needsKeys] at hcause
    · exact hfail
  | configure a b =>
    rcases configureCall_spec p a b ce with ⟨k1, k2, rfl, rfl, _⟩ | ⟨_, hfail⟩
    · simp [Instr.wellFormed, fits_symbols, lacksKeys, needsKeys] at hcause
    · exact hfail
  | encrypt x | decrypt x =>
    simp only [l1Step, encryptCall, decryptCall]
    rcases blockCall_spec p _ x ce with ⟨k1, k2, b, rfl, rfl, _⟩ | ⟨_, hfail⟩
    · simp [Instr.wellFormed, fits_symbols, lacksKeys] at hcause
    · rw [hfail, cfg_beq_zero]
      rfl

/-- R100 to R102: a command fails exactly when one of the causes applies. -/
theorem l1Step_fails_iff (p : Params) (i : Instr) (ce : CE) :
    (errorOf (l1Step p i ce).2).isSome = true ↔ i.wellFormed = false ∨ lacksKeys i ce = true := by
  refine ⟨fun hsome => ?_, fun hcause => by rw [l1Step_of_cause p hcause]; rfl⟩
  by_contra hnone
  rw [not_or, Bool.not_eq_false, Bool.not_eq_true] at hnone
  obtain ⟨hwf, hkeys⟩ := hnone
  rw [errorOf_l1Step_of_wellFormed p hwf hkeys] at hsome
  cases hsome

/-- R100 to R102: where a command fails, one of the three kinds applies. -/
theorem exists_cause {i : Instr} {ce : CE} (hcause : i.wellFormed = false ∨ lacksKeys i ce = true) :
    ∃ k, causes (operandsOf i) (lacksKeys i ce) k = true := by
  rw [not_wellFormed_iff] at hcause
  rcases hcause with (hlength | hsymbol) | hkeys
  · exact ⟨.invalidLength, hlength⟩
  · exact ⟨.invalidSymbol, hsymbol⟩
  · exact ⟨.notConfigured, hkeys⟩

/-- R104: the kind a failing command reports is one that applies, under every order. -/
theorem causes_of_errorOf {p : Params} {i : Instr} {ce : CE} {k : ErrorKind} (herr : errorOf (l1Step p i ce).2 = some k) :
    causes (operandsOf i) (lacksKeys i ce) k = true := by
  have hcause := (l1Step_fails_iff p i ce).mp (by rw [herr, Option.isSome_some])
  rw [l1Step_of_cause p hcause] at herr
  cases herr
  obtain ⟨k, hk⟩ := exists_cause hcause
  exact report_applies p.errPriority hk

/-- Settles O33: when a command fails, that it then writes nothing (R104), and that its kind applies. -/
theorem failureUnderAnyPriority : Obligations.FailureUnderAnyPriority := by
  refine fun p i ce => ⟨?_, fun k herr => ⟨l1Step_ce_of_error p i ce ?_, causes_of_errorOf herr⟩⟩
  · rw [l1Step_fails_iff, lacksKeys_iff]
  · rw [herr, Option.isSome_some]

/-- R103: the kind this machine reports is the first that applies in the spec's order. -/
theorem report_standardOrder (applies : ErrorKind → Bool) :
    report params.errPriority applies =
      if applies .invalidLength then .invalidLength else if applies .invalidSymbol then .invalidSymbol else .notConfigured := by
  rw [report, cond_eq_ite, cond_eq_ite]
  rfl

/-- R100, R103: a wrong length is reported before anything else. -/
theorem l1Step_of_wrongLength {i : Instr} (ce : CE) (hlength : wrongLength (operandsOf i) = true) :
    l1Step params i ce = (ce, .err .invalidLength) := by
  rw [l1Step_of_cause params (.inl ((not_wellFormed_iff i).mpr (.inl hlength))), report_standardOrder]
  simp [causes, hlength]

/-- R101, R103: a symbol that is not a Bit is reported where the lengths are right. -/
theorem l1Step_of_badSymbol {i : Instr} (ce : CE) (hlength : wrongLength (operandsOf i) = false)
    (hsymbol : badSymbol (operandsOf i) = true) : l1Step params i ce = (ce, .err .invalidSymbol) := by
  rw [l1Step_of_cause params (.inl ((not_wellFormed_iff i).mpr (.inr hsymbol))), report_standardOrder]
  simp [causes, hlength, hsymbol]

/-- A command is well formed when both checks of its operands pass. -/
theorem wellFormed_iff (i : Instr) :
    i.wellFormed = true ↔ wrongLength (operandsOf i) = false ∧ badSymbol (operandsOf i) = false := by
  rw [← Bool.not_eq_false, not_wellFormed_iff, not_or, Bool.not_eq_true, Bool.not_eq_true]

/-- R102, R103: missing keys are reported for a well-formed command only. -/
theorem l1Step_of_lacksKeys {i : Instr} {ce : CE} (hwf : i.wellFormed = true) (hkeys : lacksKeys i ce = true) :
    l1Step params i ce = (ce, .err .notConfigured) := by
  obtain ⟨hlength, hsymbol⟩ := (wellFormed_iff i).mp hwf
  rw [l1Step_of_cause params (.inr hkeys), report_standardOrder]
  simp [causes, hlength, hsymbol]

/-- R71 at L1, on a master key. -/
@[simp] theorem l1Step_derive (p : Params) (master : MasterKey) (ce : CE) :
    l1Step p (.derive (symbols master)) ce = (ce, .okKeys (derive master).1 (derive master).2) := by
  simp [l1Step, deriveCall, readBits_symbols]

/-- R80 at L1, on two subkeys. -/
@[simp] theorem l1Step_configure (p : Params) (a b : SubKey) (ce : CE) :
    l1Step p (.configure (symbols a) (symbols b)) ce = (.configured a b, .okDone) := by
  simp [l1Step, configureCall, readBits_symbols, loadKeys]

/-- R86 at L1, on a block, with the keys loaded. -/
@[simp] theorem l1Step_encrypt (p : Params) (k1 k2 : SubKey) (m : Block) :
    l1Step p (.encrypt (symbols m)) (.configured k1 k2) = (.configured k1 k2, .okBlock (encrypt p.boxes k1 k2 m)) := by
  simp [l1Step, encryptCall, blockCall, readBits_symbols]

/-- R87 at L1, on a block, with the keys loaded. -/
@[simp] theorem l1Step_decrypt (p : Params) (k1 k2 : SubKey) (c : Block) :
    l1Step p (.decrypt (symbols c)) (.configured k1 k2) = (.configured k1 k2, .okBlock (decrypt p.boxes k1 k2 c)) := by
  simp [l1Step, decryptCall, blockCall, readBits_symbols]

/-- R86 at L1, on a block, without keys. -/
@[simp] theorem l1Step_encrypt_unconfigured (m : Block) :
    l1Step params (.encrypt (symbols m)) .unconfigured = (.unconfigured, .err .notConfigured) :=
  l1Step_of_lacksKeys (fits_symbols m) rfl

/-- R87 at L1, on a block, without keys. -/
@[simp] theorem l1Step_decrypt_unconfigured (c : Block) :
    l1Step params (.decrypt (symbols c)) .unconfigured = (.unconfigured, .err .notConfigured) :=
  l1Step_of_lacksKeys (fits_symbols c) rfl

/-- Settles O32, one case for each kind in the order of R103, and the case in which none applies. -/
theorem errorPriority : Obligations.ErrorPriority := by
  intro i ce
  change _ = if wrongLength (operandsOf i) then some ErrorKind.invalidLength
    else if badSymbol (operandsOf i) then some .invalidSymbol
    else if lacksKeys i ce then some .notConfigured else none
  split_ifs with hlength hsymbol hkeys
  · rw [l1Step_of_wrongLength ce hlength, errorOf]
  · rw [l1Step_of_badSymbol ce (Bool.eq_false_iff.mpr hlength) hsymbol, errorOf]
  · rw [l1Step_of_lacksKeys ((wellFormed_iff i).mpr (by simp [hlength, hsymbol])) hkeys, errorOf]
  · exact errorOf_l1Step_of_wellFormed params ((wellFormed_iff i).mpr (by simp [hlength, hsymbol])) (Bool.eq_false_iff.mpr hkeys)

end Sys2Proof.Machine
end

section
/-!
PROOFS for 10_state (R20, R23), 20_memory (R29) and 70_reset_and_hazards (R123): a run of edges as a run of the port over the
inputs the host presents, and the port as the tables of the spec.
-/

namespace Sys2Proof.Machine

/-! ### A run is a run of the port (R123) -/

/-- R37, R123: the inputs at the next `k` edges; a host at the end of its list idles (log 1). -/
def edges : Nat → List PortIn → List PortIn
  | 0, _ => []
  | k + 1, inputs => inputs.headD idleIn :: edges k inputs.tail

/-- R123: `k` steps are a run of the port over the inputs of the next `k` edges. -/
theorem run_eq_portRun (k : Nat) (s : State) :
    run k s = .next ⟨(portRun params 18 s.ce (edges k s.inputs)).1, s.inputs.drop k,
      s.outputs ++ (portRun params 18 s.ce (edges k s.inputs)).2⟩ := by
  induction k generalizing s with
  | zero => simp [run, edges, portRun]
  | succ k ih => simp [run_succ, ih, edges, portRun, nextInput]

/-- R123: with one edge for each input, no edge idles. -/
theorem edges_length (inputs : List PortIn) : edges inputs.length inputs = inputs := by
  induction inputs with
  | nil => rfl
  | cons input rest ih => rw [List.length_cons, edges, List.headD_cons, List.tail_cons, ih]

/-- What holds of every input in the host's list and of an idle edge holds at every edge. -/
theorem forall_mem_edges {P : PortIn → Prop} (hidle : P idleIn) {inputs : List PortIn} (hinputs : ∀ p ∈ inputs, P p)
    (k : Nat) : ∀ p ∈ edges k inputs, P p := by
  induction k generalizing inputs with
  | zero => simp [edges]
  | succ k ih =>
    rw [edges, List.forall_mem_cons]
    refine ⟨?_, ih fun p hp => hinputs p (List.mem_of_mem_tail hp)⟩
    cases inputs with
    | nil => exact hidle
    | cons input rest => exact hinputs input List.mem_cons_self

/-- R29: a run of the port over two inputs. -/
theorem run_two_present (p q : PortIn) (s : State) :
    run 2 (present p (present q s)) =
      .next ⟨(portRun params 18 s.ce [p, q]).1, s.inputs, s.outputs ++ (portRun params 18 s.ce [p, q]).2⟩ :=
  run_eq_portRun 2 (present p (present q s))

/-- Settles O51: the port's run reads the cipher engine and the inputs, and no output shown before. -/
theorem noHiddenState : Obligations.NoHiddenState := by
  intro k s s' t t' hce hinputs hrun hrun'
  rw [run_eq_portRun] at hrun hrun'
  cases hrun
  cases hrun'
  rw [hce, hinputs]
  exact ⟨rfl, rfl, _, rfl, rfl⟩

/-! ### The tables (R23, R40, R105) -/

/-- R41: a word that decodes to a command is answered as that command at L1. -/
theorem l2Step_of_decode_command {w : CmdWord} {i : Instr} (hdecode : decode w = .command i) (ce : CE) :
    l2Step params w ce = l1Step params i ce := by
  rw [l2Step, show decodeWith params w = .command i from hdecode]

/-- R41, R42: a `Bad` word is answered with `InvalidLength`. -/
theorem l2Step_of_decode_bad {w : CmdWord} {j : Instr} (hdecode : decode w = .bad j) (ce : CE) :
    l2Step params w ce = (ce, .err .invalidLength) := by
  rw [l2Step, show decodeWith params w = .bad j from hdecode]

/-- R39: the four values of the `op` field. -/
theorem op_cases (op : BitVec 2) : op = 0b00#2 ∨ op = 0b01#2 ∨ op = 0b10#2 ∨ op = 0b11#2 := by
  revert op
  decide

/-- R23 for a command word: CONFIGURE loads its two fields, and no other word writes. -/
theorem tableState_commandIn (ce : CE) (w : CmdWord) :
    tableState ce (commandIn w) =
      if w.extractLsb' 16 2 = 0b01#2 then .configured (w.extractLsb' 8 8) (w.extractLsb' 0 8) else ce := by
  simp [tableState, isConfigure, commandIn]

/-- R40 for a command word: data beside status 00 alone. -/
theorem tableOutput_commandIn (B : Boxes) (ce : CE) (w : CmdWord) :
    tableOutput B ce (commandIn w) =
      ⟨true, if tableStatus ce w = 0b00#2 then 0b00#2 ++ tableData B ce w else tableStatus ce w ++ 0x0000#16⟩ := by
  by_cases hok : tableStatus ce w = 0b00#2 <;> simp [tableOutput, commandIn, hok]

/-- R105 for a `Bad` word, which is no CONFIGURE. -/
theorem portStep_bad_eq_tables {w : CmdWord} {ce : CE} (hbad : ∃ j, decode w = .bad j) (hop : w.extractLsb' 16 2 ≠ 0b01#2)
    (hstatus : tableStatus ce w = 0b01#2) :
    portStep params 18 (commandIn w) ce = (tableState ce (commandIn w), tableOutput params.boxes ce (commandIn w)) := by
  obtain ⟨j, hbad⟩ := hbad
  rw [portStep_commandIn, responseWith_params, l2Step_of_decode_bad hbad, tableState_commandIn, if_neg hop, tableOutput_commandIn,
    hstatus, word_invalidLength]
  rfl

/-- R23, R40, R105 for a command word: row by row of the opcode map, the port answers as the tables say. -/
theorem portStep_commandIn_eq_tables (w : CmdWord) (ce : CE) :
    portStep params 18 (commandIn w) ce = (tableState ce (commandIn w), tableOutput params.boxes ce (commandIn w)) := by
  obtain ⟨hderive, hderiveBad, hconfigure, hencrypt, hencryptBad, hdecrypt, hdecryptBad⟩ := decodeFollowsFields w
  rcases op_cases (w.extractLsb' 16 2) with hop | hop | hop | hop
  · by_cases hzero : w.extractLsb' 10 6 = 0#6
    · rw [portStep_commandIn, responseWith_params, l2Step_of_decode_command (hderive hop hzero)]
      simp [tableState_commandIn, tableOutput_commandIn, tableStatus, tableData, hop, hzero]
    · exact portStep_bad_eq_tables (hderiveBad hop hzero) (by simp [hop]) (by simp [tableStatus, hop, hzero])
  · rw [portStep_commandIn, responseWith_params, l2Step_of_decode_command (hconfigure hop)]
    simp [tableState_commandIn, tableOutput_commandIn, tableStatus, tableData, hop]
  · by_cases hzero : w.extractLsb' 8 8 = 0#8
    · rw [portStep_commandIn, responseWith_params, l2Step_of_decode_command (hencrypt hop hzero)]
      cases ce <;> simp [tableState_commandIn, tableOutput_commandIn, tableStatus, tableData, hop, hzero]
    · exact portStep_bad_eq_tables (hencryptBad hop hzero) (by simp [hop]) (by simp [tableStatus, hop, hzero])
  · by_cases hzero : w.extractLsb' 8 8 = 0#8
    · rw [portStep_commandIn, responseWith_params, l2Step_of_decode_command (hdecrypt hop hzero)]
      cases ce <;> simp [tableState_commandIn, tableOutput_commandIn, tableStatus, tableData, hop, hzero]
    · exact portStep_bad_eq_tables (hdecryptBad hop hzero) (by simp [hop]) (by simp [tableStatus, hop, hzero])

/-- R23, R37: every edge goes as the tables say. -/
theorem portStep_eq_tables (p : PortIn) (ce : CE) :
    portStep params 18 p ce = (tableState ce p, tableOutput params.boxes ce p) := by
  obtain ⟨rst, cmdValid, w⟩ := p
  cases rst with
  | true => rfl
  | false =>
    cases cmdValid with
    | false => rfl
    | true => exact portStep_commandIn_eq_tables w ce

/-- Settles O43: a step is the port at one edge, and the port goes as the tables say. -/
theorem stepFollowsTheTables : Obligations.StepFollowsTheTables := by
  intro s
  rw [step_eq, portStep_eq_tables]
  rfl

/-- R29: a run of the port goes through the tables' states and shows the tables' outputs. -/
theorem portRun_eq_tableRun (inputs : List PortIn) (ce : CE) :
    portRun params 18 ce inputs = tableRun params.boxes ce inputs := by
  induction inputs generalizing ce with
  | nil => rfl
  | cons p rest ih => rw [portRun, portStep_eq_tables, ih, tableRun]

/-- Settles O44: the run is a run of the port over the host's whole list, which goes as the tables say. -/
theorem runFollowsTheTables : Obligations.RunFollowsTheTables := by
  intro s
  rw [run_eq_portRun, edges_length, portRun_eq_tableRun, List.drop_length]

end Sys2Proof.Machine
end

section
/-!
PROOFS for 30_encoding (R37), 60_exceptions (R101, R107) and 70_reset_and_hazards (R120 to R123): what a single edge shows and
keeps, and what follows for every run: one response for each command, legal outputs, and no
error for a host that meets R107's premise.
-/

namespace Sys2Proof.Machine

/-! ### The three kinds of edge (R37) -/

/-- R120: the reset edge, whatever command is presented with it. -/
theorem portStep_of_rst (par : Params) {cmdW : Nat} (rspW : Nat) {p : InputPorts cmdW} (hrst : p.rst = true) (ce : CE) :
    portStep par rspW p ce = (.unconfigured, noResponse) := by
  simp [portStep, portEvent, hrst]

/-- R37 (c): the idle edge. -/
theorem portStep_of_idle (par : Params) {cmdW : Nat} (rspW : Nat) {p : InputPorts cmdW} (hrst : p.rst = false)
    (hvalid : p.cmdValid = false) (ce : CE) : portStep par rspW p ce = (ce, noResponse) := by
  simp [portStep, portEvent, hrst, hvalid]

/-- R37 (b): the edges that present a command are the inputs `commandIn`. -/
theorem eq_commandIn {cmdW : Nat} {p : InputPorts cmdW} (hrst : p.rst = false) (hvalid : p.cmdValid = true) :
    p = commandIn p.cmd := by
  obtain ⟨rst, cmdValid, w⟩ := p
  cases hrst
  cases hvalid
  rfl

/-- R41: a step that presents a word of a command executes the command. -/
theorem step_present_of_decode {w : CmdWord} {i : Instr} (hdecode : decode w = .command i) (s : State) :
    step (present (commandIn w) s) = exec i s := by
  rw [step_present_commandIn, l2Step_of_decode_command hdecode, exec_eq]

/-- R42: a step that presents a `Bad` word is answered with `InvalidLength` and writes nothing. -/
theorem step_present_of_bad {w : CmdWord} {j : Instr} (hdecode : decode w = .bad j) (s : State) :
    step (present (commandIn w) s) = .next (afterCommand s s.ce 0x10000#18) := by
  rw [step_present_commandIn, l2Step_of_decode_bad hdecode, answer_eq, word_invalidLength]

/-- Settles O39: the state is one in which the host presents the command's word. -/
theorem stepRunsDecodedInstruction : Obligations.StepRunsDecodedInstruction := by
  rintro ⟨ce, inputs, outputs⟩ p rest i rfl hrst hvalid hdecode
  rw [eq_commandIn hrst hvalid]
  exact step_present_of_decode hdecode ⟨ce, rest, outputs⟩

/-- Settles O36: State.reset holds the unconfigured cipher engine, which has no keys. -/
theorem resetState : Obligations.ResetState :=
  ⟨unconfigured_cfg, unconfigured_k1, unconfigured_k2⟩

/-! ### One response for each command (R123) -/

/-- R37: an output is a response exactly at an edge with a command and no reset. -/
theorem portStep_rspValid (par : Params) {cmdW : Nat} (rspW : Nat) (p : InputPorts cmdW) (ce : CE) :
    (portStep par rspW p ce).2.rspValid = (!p.rst && p.cmdValid) := by
  obtain ⟨rst, cmdValid, w⟩ := p
  cases rst with
  | true => rfl
  | false => cases cmdValid <;> rfl

/-- R123: the responses of a run, counted by its commands. -/
theorem responses_portRun_length (par : Params) {cmdW : Nat} (rspW : Nat) (inputs : List (InputPorts cmdW)) (ce : CE) :
    (responses (portRun par rspW ce inputs).2).length = (inputs.filter fun p => !p.rst && p.cmdValid).length := by
  induction inputs generalizing ce with
  | nil => rfl
  | cons p rest ih =>
    have hrest := ih (portStep par rspW p ce).1
    rw [responses, List.length_map] at hrest ⊢
    rw [portRun, List.filter_cons, List.filter_cons, portStep_rspValid]
    cases !p.rst && p.cmdValid with
    | true => exact congrArg (· + 1) hrest
    | false => exact hrest

theorem responses_append {rspW : Nat} (old new : List (OutputPorts rspW)) :
    responses (old ++ new) = responses old ++ responses new := by
  simp [responses]

/-- Settles O41: the outputs of the run come after the earlier ones, and their responses are counted by the commands. -/
theorem oneResponsePerCommand : Obligations.OneResponsePerCommand := by
  intro s t hrun
  rw [run_eq_portRun, edges_length] at hrun
  cases hrun
  rw [responses_append, List.length_append, responses_portRun_length]

/-! ### Who writes the state (R22, R121) -/

theorem cfg_eq_zero_iff (ce : CE) : ce.cfg = 0#1 ↔ ce = .unconfigured := by
  rw [← beq_iff_eq, cfg_beq_zero, beq_iff_eq]

/-- Settles O45: without reset and CONFIGURE the port leaves the whole cipher engine as it was. -/
theorem onlyConfigureAndResetWrite : Obligations.OnlyConfigureAndResetWrite := by
  intro s t hstep hwriter
  rw [step_eq, portStep_ce_of_not_writer hwriter] at hstep
  cases hstep
  exact ⟨rfl, rfl, rfl⟩

/-- R121: without a reset a configured core stays configured, under new keys after a CONFIGURE and under its own otherwise. -/
theorem portStep_configured {p : PortIn} (hrst : p.rst = false) {ce : CE} (hce : ce ≠ .unconfigured) :
    (portStep params 18 p ce).1 ≠ .unconfigured := by
  rw [portStep_eq_tables, tableState, if_neg (by simp [hrst])]
  split_ifs
  · nofun
  · exact hce

/-- Settles O46: an edge without reset would have left the core configured. -/
theorem onlyResetUnconfigures : Obligations.OnlyResetUnconfigures := by
  intro s t hstep hconfigured hunconfigured
  rw [step_eq] at hstep
  cases hstep
  rw [settle_ce, cfg_eq_zero_iff] at hunconfigured
  have hce : s.ce ≠ .unconfigured := fun h => by simp [h] at hconfigured
  by_contra hrst
  exact portStep_configured (Bool.eq_false_iff.mpr hrst) hce hunconfigured

/-- R121: without a CONFIGURE an unconfigured core stays so, resets or not. -/
theorem portRun_unconfigured {inputs : List PortIn} (hinputs : ∀ p ∈ inputs, isConfigure p = false) :
    (portRun params 18 .unconfigured inputs).1 = .unconfigured := by
  induction inputs with
  | nil => rfl
  | cons p rest ih =>
    obtain ⟨hp, hrest⟩ := List.forall_mem_cons.mp hinputs
    have hkept : (portStep params 18 p .unconfigured).1 = .unconfigured := by simp [portStep_eq_tables, tableState, hp]
    rw [portRun, hkept]
    exact ih hrest

/-- Settles O47: the run leaves the core unconfigured, where both operations report `NotConfigured`. -/
theorem unconfiguredUntilConfigure : Obligations.UnconfiguredUntilConfigure := by
  intro k s t m hce hinputs hrun
  have ht : t.ce = .unconfigured := by
    rw [run_eq_portRun, hce] at hrun
    cases hrun
    exact portRun_unconfigured (forall_mem_edges (P := fun p => isConfigure p = false) rfl hinputs k)
  refine ⟨ht, ?_, ?_⟩
  · rw [exec_eq, ht, l1Step_encrypt_unconfigured, answer_eq, word_notConfigured]
  · rw [exec_eq, ht, l1Step_decrypt_unconfigured, answer_eq, word_notConfigured]

/-! ### No error under R107's premise -/

/-- R107's premise at one edge: no reset, and no `Bad` word. -/
def meetsPremise (p : PortIn) : Prop :=
  p.rst = false ∧ (p.cmdValid = true → ∃ i, decode p.cmd = .command i)

/-- R105: a configured core answers every word that decodes to a command without an error. -/
theorem portStep_no_error {p : PortIn} (hp : meetsPremise p) {ce : CE} (hce : ce ≠ .unconfigured) :
    isError (portStep params 18 p ce).2 = false := by
  obtain ⟨hrst, hdecodes⟩ := hp
  cases hvalid : p.cmdValid with
  | false =>
    rw [portStep_of_idle params 18 hrst hvalid]
    rfl
  | true =>
    obtain ⟨i, hdecode⟩ := hdecodes hvalid
    have hok : errorOf (l1Step params i ce).2 = none :=
      errorOf_l1Step_of_wellFormed params (wellFormed_of_decode hdecode) (by simp [lacksKeys, hce])
    rw [eq_commandIn hrst hvalid, portStep_commandIn, l2Step_of_decode_command hdecode]
    exact (isError_responseOut _).trans (by rw [hok, Option.isSome_none])

/-- R107: being configured is kept along the run, so no edge shows an error. -/
theorem portRun_no_error {inputs : List PortIn} (hinputs : ∀ p ∈ inputs, meetsPremise p) {ce : CE}
    (hce : ce ≠ .unconfigured) : ∀ o ∈ (portRun params 18 ce inputs).2, isError o = false := by
  induction inputs generalizing ce with
  | nil => nofun
  | cons p rest ih =>
    obtain ⟨hp, hrest⟩ := List.forall_mem_cons.mp hinputs
    rw [portRun, List.forall_mem_cons]
    exact ⟨portStep_no_error hp hce, ih hrest (portStep_configured hp.1 hce)⟩

/-- Settles O35: the outputs the run adds are those of a run of the port in which every edge meets the premise. -/
theorem configuredHostRunsSafely : Obligations.ConfiguredHostRunsSafely := by
  intro k s hce hinputs
  have hedges : ∀ p ∈ edges k s.inputs, meetsPremise p := forall_mem_edges ⟨rfl, nofun⟩ hinputs k
  have hnone := portRun_no_error hedges hce
  rw [safeRun, run_eq_portRun]
  simpa using hnone

/-! ### Legal outputs (R37, R40, R101) -/

/-- R40: a response is a legal output, unless its status is that of `InvalidSymbol`. -/
theorem outputLegal_responseOut {r : Response} (hr : errorOf r ≠ some .invalidSymbol) : outputLegal (responseOut r) = true := by
  have hstatus : statusField (responseOut r).rsp = statusOf params.statusCodes r := statusField_wordWith le_rfl _ r
  have hdata : rdataField (responseOut r).rsp = rdataOf r := rdataField_wordWith le_rfl _ r
  rw [outputLegal, hstatus, hdata]
  cases r with
  | okKeys k1 k2 | okDone | okBlock b => rfl
  | err kind =>
    cases kind with
    | invalidSymbol => exact absurd rfl hr
    | invalidLength | notConfigured => rfl

/-- R101: at L2 no command reports `InvalidSymbol`, since the decoder gives Bits only. -/
theorem errorOf_l2Step_ne_invalidSymbol (w : CmdWord) (ce : CE) : errorOf (l2Step params w ce).2 ≠ some .invalidSymbol := by
  intro herr
  cases hdecode : decode w with
  | command i =>
    rw [l2Step_of_decode_command hdecode] at herr
    have hsymbol : badSymbol (operandsOf i) = true := causes_of_errorOf herr
    rw [((wellFormed_iff i).mp (wellFormed_of_decode hdecode)).2] at hsymbol
    cases hsymbol
  | bad j =>
    rw [l2Step_of_decode_bad hdecode] at herr
    cases herr

/-- R37: the zero outputs of an edge without a response are legal. -/
theorem outputLegal_noResponse : outputLegal noResponse = true := by
  decide

/-- R37, R40: every edge shows a legal output. -/
theorem outputLegal_portStep (p : PortIn) (ce : CE) : outputLegal (portStep params 18 p ce).2 = true := by
  obtain ⟨rst, cmdValid, w⟩ := p
  cases rst with
  | true => exact outputLegal_noResponse
  | false =>
    cases cmdValid with
    | false => exact outputLegal_noResponse
    | true => exact outputLegal_responseOut (errorOf_l2Step_ne_invalidSymbol w ce)

/-- Settles O52: a step adds one output, that of an edge of the port. -/
theorem outputsStayLegal : Obligations.OutputsStayLegal := by
  intro s t hlegal hstep o ho
  rw [step_eq] at hstep
  cases hstep
  rw [settle_outputs, consume_outputs, List.mem_append, List.mem_singleton] at ho
  rcases ho with hold | rfl
  · exact hlegal o hold
  · exact outputLegal_portStep (nextInput s) s.ce

/-- Settles O53: nothing has been shown at reset. -/
theorem outputsLegalAtReset : Obligations.OutputsLegalAtReset := by
  intro o ho
  cases ho

end Sys2Proof.Machine

namespace Sys2Proof

open Machine

/-! ### The reset and the idle step (R37, R120), outside the namespace in which the model has edges of these names -/

/-- Settles O37: one reset edge, and the run of two. -/
theorem resetEdge : Obligations.ResetEdge := by
  intro s p q hp hq
  rw [step_present, run_two_present]
  simp only [portRun, portStep_of_rst params 18 hp, portStep_of_rst params 18 hq]
  exact ⟨rfl, rfl⟩

/-- Settles O38, by the idle edge of the port. -/
theorem idleEdge : Obligations.IdleEdge := by
  intro s p hrst hvalid
  rw [step_present, portStep_of_idle params 18 hrst hvalid]
  rfl

end Sys2Proof
end

section
/-!
PROOFS for 41_key_schedule (section 3): each subkey bit is one bit of the master key, and what follows from the positions alone.
-/

namespace Sys2Proof.Machine

/-- R71: where position `j` of a 10-bit sequence comes from when each 5-bit half is rotated left by `r`. -/
def halfTurn (r j : Nat) : Nat :=
  if j < 5 then (j + r) % 5 else 5 + (j - 5 + r) % 5

theorem pos_rotateHalves (x : BitVec 10) (r : Nat) {j : Nat} (hj : j < 10) :
    pos (rotateHalves x r) j = pos x (halfTurn r j) := by
  have hmod (i : Nat) : (i + r) % 5 < 5 := Nat.mod_lt _ (by decide)
  rw [rotateHalves, pos_append, halfTurn]
  split
  next hlow => rw [pos_rotl _ r hlow, pos_slice _ _ (hmod j), Nat.zero_add]
  next hhigh => rw [pos_rotl _ r (by omega), pos_slice _ _ (hmod (j - 5))]

theorem halfTurn_lt (r : Nat) (j : Nat) : halfTurn r j < 10 := by
  have hmod (i : Nat) : (i + r) % 5 < 5 := Nat.mod_lt _ (by decide)
  rw [halfTurn]
  split
  next => exact (hmod j).trans (by decide)
  next => exact Nat.add_lt_add_left (hmod (j - 5)) 5

/-- 41_key_schedule section 3: the master position each bit of `k1` is taken from. -/
def k1Position (i : Nat) : Nat :=
  [0, 6, 8, 3, 7, 2, 9, 5].getD i 0

/-- 41_key_schedule section 3: the master position each bit of `k2` is taken from. -/
def k2Position (i : Nat) : Nat :=
  [7, 2, 5, 4, 9, 1, 8, 0].getD i 0

theorem pos_firstRotation (master : MasterKey) {j : Nat} (hj : j < 10) :
    pos (firstRotation master) j = pos master (P10.entry (halfTurn 1 j) - 1) := by
  rw [firstRotation, pos_rotateHalves _ 1 hj, pos_permute P10 master (halfTurn_lt 1 j)]

theorem pos_secondRotation (master : MasterKey) {j : Nat} (hj : j < 10) :
    pos (secondRotation master) j = pos master (P10.entry (halfTurn 1 (halfTurn 2 j)) - 1) := by
  rw [secondRotation, pos_rotateHalves _ 2 hj, pos_firstRotation master (halfTurn_lt 2 j)]

/-- Through P8, the rotation and P10, by position. -/
theorem pos_derive_fst (master : MasterKey) {i : Nat} (hi : i < 8) : pos (derive master).1 i = pos master (k1Position i) := by
  have hpositions : ∀ i < 8, P10.entry (halfTurn 1 (P8.entry i - 1)) - 1 = k1Position i := by decide
  rw [derive, pos_permute P8 _ hi, pos_firstRotation master (P8.entry_sub_one_lt hi), hpositions i hi]

/-- Through P8, both rotations and P10, by position. -/
theorem pos_derive_snd (master : MasterKey) {i : Nat} (hi : i < 8) : pos (derive master).2 i = pos master (k2Position i) := by
  have hpositions : ∀ i < 8, P10.entry (halfTurn 1 (halfTurn 2 (P8.entry i - 1))) - 1 = k2Position i := by decide
  rw [derive, pos_permute P8 _ hi, pos_secondRotation master (P8.entry_sub_one_lt hi), hpositions i hi]

/-- Settles O14, for `k1` and for `k2`. -/
theorem deriveClosedForm : Obligations.DeriveClosedForm :=
  fun master _ hi => ⟨pos_derive_fst master hi, pos_derive_snd master hi⟩

/-- Settles O15: every master position is among those of `k1` or those of `k2`. -/
theorem deriveInjective : Obligations.DeriveInjective := by
  have hcover : ∀ j < 10, (∃ i < 8, k1Position i = j) ∨ (∃ i < 8, k2Position i = j) := by decide
  refine fun a b hab => pos_ext fun j hj => ?_
  rcases hcover j hj with ⟨i, hi, rfl⟩ | ⟨i, hi, rfl⟩
  · rw [← pos_derive_fst a hi, hab, pos_derive_fst b hi]
  · rw [← pos_derive_snd a hi, hab, pos_derive_snd b hi]

/-- Settles O16: XOR acts position by position, and each subkey position is a master position. -/
theorem deriveCommutesWithXor : Obligations.DeriveCommutesWithXor := by
  refine fun a b => ⟨pos_ext fun i hi => ?_, pos_ext fun i hi => ?_⟩
  · rw [pos_xor]
    simp only [pos_derive_fst _ hi, pos_xor]
  · rw [pos_xor]
    simp only [pos_derive_snd _ hi, pos_xor]

/-! ### The master keys with two equal subkeys (section 3 (c)) -/

/-- Equal subkeys, in terms of the master key's positions. -/
theorem subkeys_eq_iff (master : MasterKey) :
    (derive master).1 = (derive master).2 ↔ ∀ i < 8, pos master (k1Position i) = pos master (k2Position i) := by
  refine ⟨fun heq i hi => ?_, fun hbit => pos_ext fun i hi => ?_⟩
  · rw [← pos_derive_fst master hi, heq, pos_derive_snd master hi]
  · rw [pos_derive_fst master hi, hbit i hi, pos_derive_snd master hi]

/-- The master key whose positions are equal as far as equal subkeys make them: 0, 5, 7, 8, 9, then 1, 2, 6, then 3, 4. -/
def equalSubkeyMaster (x y z : Bool) : MasterKey :=
  ofPositions 10 fun j => [x, y, y, z, z, x, y, x, x, x].getD j false

/-- Comparing the subkeys bit by bit chains the master positions into three classes. -/
theorem eq_equalSubkeyMaster {master : MasterKey} (heq : (derive master).1 = (derive master).2) :
    master = equalSubkeyMaster (pos master 0) (pos master 1) (pos master 3) := by
  have hbit := (subkeys_eq_iff master).mp heq
  refine pos_ext fun j hj => ?_
  rw [equalSubkeyMaster, pos_ofPositions _ hj]
  match j, hj with
  | 0, _ | 1, _ | 3, _ => rfl
  | 2, _ => exact hbit 5 (by decide)
  | 4, _ => exact (hbit 3 (by decide)).symm
  | 5, _ => exact hbit 7 (by decide)
  | 6, _ => exact (hbit 1 (by decide)).trans (hbit 5 (by decide))
  | 7, _ => exact (hbit 0 (by decide)).symm
  | 8, _ => exact (hbit 2 (by decide)).trans (hbit 7 (by decide))
  | 9, _ => exact ((hbit 0 (by decide)).trans (hbit 4 (by decide))).symm

/-- The eight keys of that form, in the order of their three bits. -/
theorem equalSubkeyMaster_values :
    [equalSubkeyMaster false false false, equalSubkeyMaster false false true, equalSubkeyMaster false true false,
      equalSubkeyMaster false true true, equalSubkeyMaster true false false, equalSubkeyMaster true false true,
      equalSubkeyMaster true true false, equalSubkeyMaster true true true] =
    [0b0000000000#10, 0b0001100000#10, 0b0110001000#10, 0b0111101000#10,
      0b1000010111#10, 0b1001110111#10, 0b1110011111#10, 0b1111111111#10] := by
  decide

/-- The keys listed are the keys of that form. -/
theorem mem_equalSubkeyMasters_iff (master : MasterKey) :
    master ∈ [0b0000000000#10, 0b0001100000#10, 0b0110001000#10, 0b0111101000#10,
      0b1000010111#10, 0b1001110111#10, 0b1110011111#10, 0b1111111111#10] ↔ ∃ x y z, master = equalSubkeyMaster x y z := by
  rw [← equalSubkeyMaster_values]
  simp only [List.mem_cons, List.not_mem_nil, or_false, Bool.exists_bool, or_assoc]

/-- Both positions that a subkey bit is compared at lie in one class. -/
theorem equalSubkeyMaster_subkeys (x y z : Bool) :
    (derive (equalSubkeyMaster x y z)).1 = (derive (equalSubkeyMaster x y z)).2 := by
  have hranges : ∀ i < 8, k1Position i < 10 ∧ k2Position i < 10 := by decide
  rw [subkeys_eq_iff]
  intro i hi
  rw [equalSubkeyMaster, pos_ofPositions _ (hranges i hi).1, pos_ofPositions _ (hranges i hi).2]
  revert x y z i
  decide

/-- Settles O17: a key has equal subkeys exactly when its positions agree class by class. -/
theorem equalSubkeyMasters : Obligations.EqualSubkeyMasters := by
  intro master
  rw [mem_equalSubkeyMasters_iff]
  refine ⟨fun heq => ⟨_, _, _, eq_equalSubkeyMaster heq⟩, ?_⟩
  rintro ⟨x, y, z, rfl⟩
  exact equalSubkeyMaster_subkeys x y z

end Sys2Proof.Machine
end

section
/-!
PROOFS for 42_cipher (R82 to R91) and 95_test_vectors section 7, for every pair of boxes: F bit by bit, the round as an
involution, the datapath in halves, and from it the round trip and its consequences.
-/

namespace Sys2Proof.Machine

/-! ### F, bit by bit (R82) -/

/-- The value of two 2-bit sequences put together. -/
theorem toNat_append_two (x y : BitVec 2) : (x ++ y : BitVec 4).toNat = 4 * x.toNat + y.toNat := by
  revert x y
  decide

/-- R55, R82: the bit of the expanded half that meets key bit `i`. -/
theorem pos_expanded (key : SubKey) (half : Half) {i : Nat} (hi : i < 8) :
    pos (permute EP half ^^^ key) i = (pos half (EP.entry i - 1) ^^ pos key i) := by
  rw [pos_xor, pos_permute EP half hi]

/-- R63, R82: the lookup in the expanded half's four bits from `a` on. -/
theorem toNat_sbox_slice (S : SBox) (x : BitVec 8) (a : Nat) {row col : Fin 4}
    (hrow : row.val = 2 * (pos x a).toNat + (pos x (a + 3)).toNat)
    (hcol : col.val = 2 * (pos x (a + 1)).toNat + (pos x (a + 2)).toNat) :
    (sbox S (slice x a 4)).toNat = (S row col).val := by
  have hpos (j : Nat) (hj : j < 4) : pos (slice x a 4) j = pos x (a + j) := pos_slice x a hj
  rw [toNat_sbox, rowIndex, colIndex, hpos 0 (by decide), hpos 1 (by decide), hpos 2 (by decide), hpos 3 (by decide),
    Nat.add_zero, ← eq_bitPair hrow, ← eq_bitPair hcol]

/-- Settles O21: EP pairs each key bit with a half bit, and each box looks up its four pairs. -/
theorem roundFunctionBits : Obligations.RoundFunctionBits := by
  intro B key half row0 col0 row1 col1 hrow0 hcol0 hrow1 hcol1
  have hpos {i : Nat} (hi : i < 8) := pos_expanded key half hi
  rw [F, toNat_append_two]
  congr 1
  · rw [toNat_sbox_slice B.s0 _ 0 (row := row0) (col := col0)]
    · rw [hpos (by decide), hpos (by decide)]
      exact hrow0
    · rw [hpos (by decide), hpos (by decide)]
      exact hcol0
  · rw [toNat_sbox_slice B.s1 _ 4 (row := row1) (col := col1)]
    · rw [hpos (by decide), hpos (by decide)]
      exact hrow1
    · rw [hpos (by decide), hpos (by decide)]
      exact hcol1

/-! ### The round and the datapath (R83, R84, R88, R89) -/

/-- Settles O23: the second round takes out of the left half what the first put in. -/
theorem roundIsInvolution : Obligations.RoundIsInvolution := by
  intro B key left4 right4
  rw [slice_Round_left, slice_Round_right, Round, BitVec.xor_assoc, BitVec.xor_self, BitVec.xor_zero]

/-- R88: what a round XORs into the half beside `half`. -/
def roundMask (B : Boxes) (key : SubKey) (half : Half) : Half :=
  permute P4 (F B key half)

/-- R88: the datapath on the halves of `IP(m)`: two rounds with one swap between them. -/
theorem crypt_of_halves (B : Boxes) (ka kb : SubKey) {m : Block} {lh rh : Half} (hm : permute IP m = lh ++ rh) :
    crypt B ka kb m =
      permute IPinv ((rh ^^^ roundMask B kb (lh ^^^ roundMask B ka rh)) ++ (lh ^^^ roundMask B ka rh)) := by
  have hleft : slice (permute IP m) 0 4 = lh := by rw [hm, slice_append_left]
  have hright : slice (permute IP m) 4 4 = rh := by rw [hm, slice_append_right]
  simp only [crypt, hleft, hright, slice_Round_left, slice_Round_right]
  rfl

/-- Settles O24. -/
theorem cryptInHalves : Obligations.CryptInHalves :=
  fun B ka kb _ _ _ hm => crypt_of_halves B ka kb hm

/-- R88, before the final permutation, which `IP` takes back. -/
theorem permute_IP_crypt (B : Boxes) (ka kb : SubKey) {m : Block} {lh rh : Half} (hm : permute IP m = lh ++ rh) :
    permute IP (crypt B ka kb m) =
      (rh ^^^ roundMask B kb (lh ^^^ roundMask B ka rh)) ++ (lh ^^^ roundMask B ka rh) := by
  rw [crypt_of_halves B ka kb hm, permute_IP_permute_IPinv]

/-- The halves of `IP(m)`, for every block. -/
theorem exists_halves (m : Block) : ∃ lh rh : Half, permute IP m = lh ++ rh :=
  ⟨_, _, (slice_append_slice (k := 4) (n := 4) (permute IP m)).symm⟩

/-- R90: the datapath with the keys exchanged undoes the datapath: each round mask is met again and cancels. -/
theorem crypt_crypt (B : Boxes) (ka kb : SubKey) (m : Block) : crypt B kb ka (crypt B ka kb m) = m := by
  obtain ⟨lh, rh, hm⟩ := exists_halves m
  rw [crypt_of_halves B kb ka (permute_IP_crypt B ka kb hm)]
  simp only [BitVec.xor_assoc, BitVec.xor_self, BitVec.xor_zero]
  rw [← hm, permute_IPinv_permute_IP]

@[simp] theorem decrypt_encrypt (B : Boxes) (k1 k2 : SubKey) (m : Block) : decrypt B k1 k2 (encrypt B k1 k2 m) = m :=
  crypt_crypt B k1 k2 m

@[simp] theorem encrypt_decrypt (B : Boxes) (k1 k2 : SubKey) (c : Block) : encrypt B k1 k2 (decrypt B k1 k2 c) = c :=
  crypt_crypt B k2 k1 c

/-- Settles O25, both ways. -/
theorem roundTripAnyBoxes : Obligations.RoundTripAnyBoxes :=
  fun B k1 k2 x => ⟨decrypt_encrypt B k1 k2 x, encrypt_decrypt B k1 k2 x⟩

/-! ### Consequences of the round trip (R91) -/

/-- Settles O27: each of the two functions is the inverse of the other. -/
theorem cipherIsBijective : Obligations.CipherIsBijective :=
  fun B k1 k2 =>
    ⟨Function.bijective_iff_has_inverse.mpr ⟨decrypt B k1 k2, decrypt_encrypt B k1 k2, encrypt_decrypt B k1 k2⟩,
      Function.bijective_iff_has_inverse.mpr ⟨encrypt B k1 k2, encrypt_decrypt B k1 k2, decrypt_encrypt B k1 k2⟩⟩

/-- Settles O28: equal ciphertexts would come from equal blocks, and the mask has bit `i` set. -/
theorem flippedBitShows : Obligations.FlippedBitShows := by
  intro B k1 k2 m d i hi hmask hsame
  have hblock : m ^^^ d = m := (cipherIsBijective B k1 k2).1.injective hsame
  have hbit := congrArg (pos · i) hblock
  simp [pos_xor, hmask i hi] at hbit

/-- Settles O29: with the right half of `IP(m)` zero and the left half one bit off the first round's mask, the right half of
`IP` of the ciphertext is that one bit, and not zero. -/
theorem encryptIsNotTheIdentity : Obligations.EncryptIsNotTheIdentity := by
  intro B k1 k2
  obtain ⟨m, hm⟩ : ∃ m, permute IP m = (0b0001#4 ^^^ roundMask B k1 0b0000#4) ++ 0b0000#4 :=
    ⟨_, permute_IP_permute_IPinv _⟩
  refine ⟨m, fun hid => ?_⟩
  have hout := permute_IP_crypt B k1 k2 hm
  rw [show crypt B k1 k2 m = m from hid, hm] at hout
  have hright := congrArg (slice · 4 4) hout
  simp only [slice_append_right, BitVec.xor_assoc, BitVec.xor_self, BitVec.xor_zero] at hright
  exact absurd hright (by decide)

/-- Settles O30: under equal subkeys encryption and decryption are the same. -/
theorem equalSubkeysSelfInverse : Obligations.EqualSubkeysSelfInverse := by
  intro B master m heq
  rw [heq]
  exact crypt_crypt B (derive master).2 (derive master).2 m

/-! ### Constant boxes (95_test_vectors section 7) -/

/-- With constant boxes every round mask is `P4` of the two entries put together. -/
theorem roundMask_of_constant_boxes {B : Boxes} (hs0 : ∀ r c, B.s0 r c = 0) (hs1 : ∀ r c, B.s1 r c = 3) (key : SubKey)
    (half : Half) : roundMask B key half = 0b0110#4 := by
  simp only [roundMask, F, sbox, hs0, hs1]
  decide

/-- Settles O31: both round masks are `0110`, whatever the keys and the block. -/
theorem constantBoxesShowTheWiring : Obligations.ConstantBoxesShowTheWiring := by
  intro B ka kb b hs0 hs1
  rw [crypt_of_halves B ka kb (slice_append_slice (k := 4) (n := 4) (permute IP b)).symm]
  simp only [roundMask_of_constant_boxes hs0 hs1]

/-- Settles O12: the two lookup tables, evaluated at the 16 inputs (the entries are PRESUMED, log 4). -/
theorem referenceBoxMaps : Obligations.ReferenceBoxMaps :=
  ⟨by decide, by decide⟩

end Sys2Proof.Machine
end

section
/-!
PROOFS for 41_key_schedule (R71) and 42_cipher (R80, R86, R87): what each instruction answers and writes, on operands of
every shape and as a command word.
-/

namespace Sys2Proof.Machine

/-! ### The errors of an instruction, as the port shows them (R100 to R103, log 10) -/

theorem exec_of_wrongLength {i : Instr} (hlength : wrongLength (operandsOf i) = true) (s : State) :
    exec i s = .next (afterCommand s s.ce 0x10000#18) := by
  rw [exec_eq, l1Step_of_wrongLength s.ce hlength, answer_eq, word_invalidLength]

theorem exec_of_badSymbol {i : Instr} (hlength : wrongLength (operandsOf i) = false) (hsymbol : badSymbol (operandsOf i) = true)
    (s : State) : exec i s = .next (afterCommand s s.ce 0x20000#18) := by
  rw [exec_eq, l1Step_of_badSymbol s.ce hlength hsymbol, answer_eq, word_invalidSymbol]

theorem exec_of_lacksKeys {i : Instr} {s : State} (hwf : i.wellFormed = true) (hkeys : lacksKeys i s.ce = true) :
    exec i s = .next (afterCommand s s.ce 0x30000#18) := by
  rw [exec_eq, l1Step_of_lacksKeys hwf hkeys, answer_eq, word_notConfigured]

/-- R100: a command with one operand, of the wrong length. -/
theorem exec_of_length_ne {i : Instr} {n : Nat} {x : Operand} (hi : operandsOf i = [(n, x)]) (hlength : x.length ≠ n)
    (s : State) : exec i s = .next (afterCommand s s.ce 0x10000#18) :=
  exec_of_wrongLength (by simp [hi, wrongLength, hlength]) s

/-- R101: a command with one operand, of the right length, that holds a symbol other than the Bits. -/
theorem exec_of_not_all_bits {i : Instr} {n : Nat} {x : Operand} (hi : operandsOf i = [(n, x)]) (hlength : x.length = n)
    (hsymbol : x.all Symbol.isBit = false) (s : State) : exec i s = .next (afterCommand s s.ce 0x20000#18) :=
  exec_of_badSymbol (by simp [hi, wrongLength, hlength])
    (by simp only [hi, badSymbol, List.any_cons, List.any_nil, hsymbol, Bool.not_false, Bool.or_false]) s

/-- R22: an instruction other than CONFIGURE writes no state. -/
theorem exec_ce {i : Instr} (hi : i.mnemonic ≠ .configure) {s t : State} (hexec : exec i s = .next t) : t.ce = s.ce := by
  rw [exec_eq] at hexec
  cases hexec
  rw [answer_ce, l1Step_ce params i s.ce hi]

/-! ### DERIVE (R71) -/

/-- R71, step 5: the second rotation turns the halves that the first one left. -/
theorem secondRotation_eq (master : MasterKey) :
    secondRotation master =
      rotl (rotl (slice (permute P10 master) 0 5) 1) 2 ++ rotl (rotl (slice (permute P10 master) 5 5) 1) 2 := by
  rw [secondRotation, rotateHalves, firstRotation, rotateHalves, slice_append_left, slice_append_right]

/-- Settles O13: the six steps, the two errors, and the word with and without reserved bits. -/
theorem deriveRule : Obligations.DeriveRule := by
  refine fun s => ⟨fun master => ?_, fun x hlength => ?_, fun x hlength hsymbol => ?_, fun w hop hzero => ?_,
    fun w hop hset => ?_⟩
  · rw [exec_eq, l1Step_derive, answer_eq, word_okKeys, derive, secondRotation_eq]
    rfl
  · exact exec_of_length_ne rfl hlength s
  · exact exec_of_not_all_bits rfl hlength hsymbol s
  · exact step_present_of_decode ((decodeFollowsFields w).1 hop hzero) s
  · obtain ⟨j, hbad⟩ := (decodeFollowsFields w).2.1 hop hset
    exact step_present_of_bad hbad s

/-! ### CONFIGURE (R80) -/

/-- R80: both keys are loaded and the response is the zero word. -/
theorem exec_configure (a b : SubKey) (s : State) :
    exec (.configure (symbols a) (symbols b)) s = .next (afterCommand s (.configured a b) 0x00000#18) := by
  rw [exec_eq, l1Step_configure, answer_eq, word_okDone]

/-- Settles O18: the loading, the two errors, the word, and that no other instruction writes. -/
theorem configureRule : Obligations.ConfigureRule := by
  refine fun s => ⟨fun a b => exec_configure a b s, fun x y hlength => ?_, fun x y hx hy hsymbol => ?_, fun w hop => ?_,
    fun i t hi hexec => ?_⟩
  · exact exec_of_wrongLength (by simpa [wrongLength, operandsOf] using hlength) s
  · exact exec_of_badSymbol (by simp [wrongLength, operandsOf, hx, hy]) (by simpa [badSymbol, operandsOf] using hsymbol) s
  · obtain ⟨-, -, hconfigure, -⟩ := decodeFollowsFields w
    rw [step_present_of_decode (hconfigure hop), exec_configure]
  · exact exec_ce hi hexec

/-! ### ENCRYPT and DECRYPT (R86, R87) -/

/-- Settles O19: the block, the three errors in their order, and the word with and without reserved bits. -/
theorem encryptRule : Obligations.EncryptRule := by
  refine fun s => ⟨fun k1 k2 m hce => ?_, fun x hlength => ?_, fun x hlength hsymbol => ?_, fun m hce => ?_,
    fun w hop hzero => ?_, fun w hop hset => ?_⟩
  · rw [exec_eq, hce, l1Step_encrypt, answer_eq, word_okBlock, encrypt]
  · exact exec_of_length_ne rfl hlength s
  · exact exec_of_not_all_bits rfl hlength hsymbol s
  · exact exec_of_lacksKeys (fits_symbols m) (by rw [hce]; rfl)
  · obtain ⟨-, -, -, hencrypt, -⟩ := decodeFollowsFields w
    exact step_present_of_decode (hencrypt hop hzero) s
  · obtain ⟨-, -, -, -, hencryptBad, -⟩ := decodeFollowsFields w
    obtain ⟨j, hbad⟩ := hencryptBad hop hset
    exact step_present_of_bad hbad s

/-- Settles O20, as O19 with the round keys exchanged. -/
theorem decryptRule : Obligations.DecryptRule := by
  refine fun s => ⟨fun k1 k2 c hce => ?_, fun x hlength => ?_, fun x hlength hsymbol => ?_, fun c hce => ?_,
    fun w hop hzero => ?_, fun w hop hset => ?_⟩
  · rw [exec_eq, hce, l1Step_decrypt, answer_eq, word_okBlock, decrypt]
  · exact exec_of_length_ne rfl hlength s
  · exact exec_of_not_all_bits rfl hlength hsymbol s
  · exact exec_of_lacksKeys (fits_symbols c) (by rw [hce]; rfl)
  · obtain ⟨-, -, -, -, -, hdecrypt, -⟩ := decodeFollowsFields w
    exact step_present_of_decode (hdecrypt hop hzero) s
  · obtain ⟨-, -, -, -, -, -, hdecryptBad⟩ := decodeFollowsFields w
    obtain ⟨j, hbad⟩ := hdecryptBad hop hset
    exact step_present_of_bad hbad s

/-! ### Frames (R22, R37) -/

/-- R37 (b): an instruction shows one response and touches nothing the host has still to present. -/
theorem exec_frame {i : Instr} {s t : State} (hexec : exec i s = .next t) :
    t.inputs = s.inputs ∧ ∃ w, t.outputs = s.outputs ++ [⟨true, w⟩] := by
  rw [exec_eq] at hexec
  cases hexec
  exact ⟨rfl, (l1Step params i s.ce).2.word, by rw [answer_outputs, responseOut, responseWith_params]⟩

/-- Settles O42: the common frame of all four, with CE from R22 for three of them and from R80 for CONFIGURE. -/
theorem instructionFrames : Obligations.InstructionFrames := by
  refine fun s t => ⟨fun x hexec => ?_, fun x y hexec => ⟨?_, exec_frame hexec⟩⟩
  · rcases hexec with hexec | hexec | hexec
    · exact ⟨exec_ce (by simp [Instr.mnemonic]) hexec, exec_frame hexec⟩
    · exact ⟨exec_ce (by simp [Instr.mnemonic]) hexec, exec_frame hexec⟩
    · exact ⟨exec_ce (by simp [Instr.mnemonic]) hexec, exec_frame hexec⟩
  · rw [exec_eq, l1Step] at hexec
    cases hexec
    rcases configureCall_spec params x y s.ce with ⟨a, b, hx, hy, hok⟩ | ⟨_, hfail⟩
    · exact .inr ⟨a, b, hx, hy, by rw [answer_ce, hok]⟩
    · exact .inl (by rw [answer_ce, hfail])

end Sys2Proof.Machine
end

section
/-!
PROOFS for 30_encoding (R45 to R47), 42_cipher (R90) and 70_reset_and_hazards (R124): several commands in a row, as words at the
port and as the lines of a host's listing.
-/

namespace Sys2Proof.Machine

/-! ### Commands in a row at the port (R7, R90, R124) -/

/-- R38, R41: an encoded command is answered at the port as at L1, at every width that holds the operands. -/
theorem portStep_of_encodeWith {p : Params} {n : Nat} (hn : 18 ≤ n) {i : Instr} {w : BitVec n}
    (hencode : encodeWith p n i = some w) (rspW : Nat) (ce : CE) :
    portStep p rspW (commandIn w) ce = ((l1Step p i ce).1, responseWith p.statusCodes rspW (l1Step p i ce).2) := by
  rw [portStep_commandIn, l2Step, decodeWith_of_encodeWith hn hencode]

/-- Settles O57: the three words in turn, and decryption of the ciphertext gives the block. -/
theorem roundTripAnyParameters : Obligations.RoundTripAnyParameters := by
  intro p n k ce a b m wc we wd hn hwc hwe hwd
  simp only [portRun, portStep_of_encodeWith hn hwc, portStep_of_encodeWith hn hwe, portStep_of_encodeWith hn hwd,
    l1Step_configure, l1Step_encrypt, l1Step_decrypt, decrypt_encrypt]
  rfl

/-- R38: the word of CONFIGURE on two subkeys. -/
theorem encode_configure (a b : SubKey) :
    encode (.configure (symbols a) (symbols b)) = some (0b01#2 ++ (a ++ b : BitVec 16)) :=
  (encodeWith_configure params 18 a b).trans (congrArg some (packWord_18 _ _))

/-- R38: the word of ENCRYPT on a block. -/
theorem encode_encrypt (m : Block) : encode (.encrypt (symbols m)) = some (0b10#2 ++ (0x00#8 ++ m : BitVec 16)) := by
  rw [encode, encodeWith, readBits_symbols, Option.map_some, packWord_18_8]
  rfl

/-- Settles O49: the second word meets the keys that the first one has loaded. -/
theorem newKeysAtOnce : Obligations.NewKeysAtOnce := by
  intro s a b m
  rw [run_two_present]
  simp only [portRun, portStep_of_encodeWith le_rfl (encode_configure a b), portStep_of_encodeWith le_rfl (encode_encrypt m),
    l1Step_configure, l1Step_encrypt, responseWith_params, word_okDone, word_okBlock]

/-! ### Listings (R45 to R47) -/

/-- The response the host has just seen is the one just given. -/
theorem lastResponse_answer (s : State) (result : CE × Response) : lastResponse (answer s result) = result.2.word := by
  rw [lastResponse, answer_outputs, List.getLastD_concat]
  rfl

/-- R46: what the word of an instruction leaves behind: the answer, and the host's copies of the response. -/
theorem runWord_of_encode {i : Instr} {w : CmdWord} (hencode : encode i = some w) (s : State) :
    runWord w s = some (answer s (l1Step params i s.ce), copyAfter i.mnemonic (l1Step params i s.ce).2.word) := by
  have hdecode : decode w = .command i := decode_eq_command_iff.mpr hencode
  rw [runWord, step_present_of_decode hdecode, exec_eq, afterStep, lastResponse_answer, mnemonicOf,
    ← mnemonic_of_decodeWith hdecode]

/-- R45: a line with a well-formed instruction sends the instruction's word. -/
theorem runCall_of_wellFormed {i : Instr} (hwf : i.wellFormed = true) (s : State) :
    runCall i s = some (answer s (l1Step params i s.ce), copyAfter i.mnemonic (l1Step params i s.ce).2.word) := by
  obtain ⟨w, hencode, -⟩ := decodeOfEncode i hwf
  rw [runCall, hencode]
  exact runWord_of_encode hencode s

/-- R46: after a successful DERIVE the host holds its two subkeys. -/
theorem copyAfter_okKeys (k1 k2 : SubKey) :
    copyAfter .derive (Response.okKeys k1 k2).word = { keys := some (k1 ++ k2 : BitVec 16), block := none } := by
  have hstatus : statusField (Response.okKeys k1 k2).word = params.statusCodes.ok := statusField_wordWith le_rfl _ _
  have hdata : rdataField (Response.okKeys k1 k2).word = k1 ++ k2 := rdataField_wordWith le_rfl _ _
  rw [copyAfter, if_pos hstatus, hdata]

/-- R46: after a successful ENCRYPT the host holds its block. -/
theorem copyAfter_okBlock (b : Block) :
    copyAfter .encrypt (Response.okBlock b).word = { keys := none, block := some b } := by
  have hstatus : statusField (Response.okBlock b).word = params.statusCodes.ok := statusField_wordWith le_rfl _ _
  have hdata : (Response.okBlock b).word.extractLsb' 0 8 = b :=
    (extractLsb'_word _ 0 8 (by decide)).trans BitVec.extractLsb'_append_eq_right
  rw [copyAfter, if_pos hstatus, hdata]

/-- R39: the row's `match`, with a data field put in, is the word of that field. -/
theorem matchOf_or (m : Mnemonic) (d : BitVec 16) : matchOf m ||| d.setWidth 18 = packWord 18 (opcode m) d := by
  simp [matchOf, packWord]

/-- R46: `CONFIGURE $` after a DERIVE loads the two subkeys the host holds. -/
theorem runLine_configureKeys (a b : SubKey) (s : State) :
    runLine .configureKeys s { keys := some (a ++ b : BitVec 16), block := none } =
      some (answer s (.configured a b, .okDone), copyAfter .configure Response.okDone.word) := by
  have hencode : encode (.configure (symbols a) (symbols b)) =
      some (matchOf .configure ||| (a ++ b : BitVec 16).setWidth 18) := by
    rw [matchOf_or]
    exact encodeWith_configure params 18 a b
  rw [runLine, Option.bind_some, runWord_of_encode hencode, l1Step_configure, Instr.mnemonic]

/-- R18: a listing in two parts runs the second from where the first ends. -/
theorem runExpanded_append (first second : List Line) (s : State) (copy : HostCopy) :
    runExpanded (first ++ second) s copy = (runExpanded first s copy).bind fun r => runExpanded second r.1 r.2 := by
  induction first generalizing s copy with
  | nil => rfl
  | cons line rest ih => simp only [List.cons_append, runExpanded, ih, Option.bind_assoc]

theorem runListing_cons (line : Line) (rest : List Line) (s : State) (copy : HostCopy) :
    runListing (line :: rest) s copy = (runListing [line] s copy).bind fun r => runListing rest r.1 r.2 := by
  simp only [runListing, List.flatMap_cons, List.flatMap_nil, List.append_nil, runExpanded_append]

/-- R47: SETKEY, its two lines in turn: DERIVE gives the host the two subkeys, which `CONFIGURE $` loads. -/
theorem runListing_setkey (master : MasterKey) (s : State) (copy : HostCopy) :
    runListing [.setkey (symbols master)] s copy =
      some (answer (answer s (s.ce, .okKeys (derive master).1 (derive master).2))
        (.configured (derive master).1 (derive master).2, .okDone), copyAfter .configure Response.okDone.word) := by
  have hderive := runCall_of_wellFormed (i := .derive (symbols master)) (fits_symbols master) s
  rw [l1Step_derive, Instr.mnemonic, copyAfter_okKeys] at hderive
  simp only [runListing, List.flatMap_cons, List.flatMap_nil, List.append_nil, expand, runExpanded]
  rw [runLine, hderive, Option.bind_some, runLine_configureKeys, Option.bind_some]

/-- R47: ROUNDTRIP in a configured core, its two lines in turn: `DECRYPT $` undoes the ENCRYPT before it. -/
theorem runListing_roundtrip {s : State} {k1 k2 : SubKey} (hce : s.ce = .configured k1 k2) (m : Block) (copy : HostCopy) :
    runListing [.roundtrip (symbols m)] s copy =
      some (answer (answer s (.configured k1 k2, .okBlock (encrypt params.boxes k1 k2 m))) (.configured k1 k2, .okBlock m),
        copyAfter .decrypt (Response.okBlock m).word) := by
  have hencrypt := runCall_of_wellFormed (i := .encrypt (symbols m)) (fits_symbols m) s
  rw [hce, l1Step_encrypt, Instr.mnemonic, copyAfter_okBlock] at hencrypt
  have hdecrypt := runCall_of_wellFormed (i := .decrypt (symbols (encrypt params.boxes k1 k2 m))) (fits_symbols _)
    (answer s (.configured k1 k2, .okBlock (encrypt params.boxes k1 k2 m)))
  rw [answer_ce, l1Step_decrypt, decrypt_encrypt, Instr.mnemonic] at hdecrypt
  simp only [runListing, List.flatMap_cons, List.flatMap_nil, List.append_nil, expand, runExpanded]
  rw [runLine, hencrypt, Option.bind_some, runLine, Option.bind_some, hdecrypt, Option.bind_some]

/-- Settles O50: the second line of SETKEY loads the derived subkeys. -/
theorem setkeyLoadsDerivedKeys : Obligations.SetkeyLoadsDerivedKeys :=
  fun s copy master => ⟨_, _, runListing_setkey master s copy, rfl⟩

/-- Settles O26: SETKEY leaves the core configured, where ROUNDTRIP ends with the block. -/
theorem roundTripOnTheMachine : Obligations.RoundTripOnTheMachine := by
  intro s copy sk m
  rw [runListing_cons, runListing_setkey, Option.bind_some, runListing_roundtrip (answer_ce _ _)]
  exact ⟨_, _, rfl, (lastResponse_answer _ _).trans (word_okBlock m)⟩

end Sys2Proof.Machine
end
